-- ==== Sys2Proof/Word.lean ====
section
/-! DEFINITION. The word types of the block (spec 00_scope.md rules R5 and R8): a word is an unsigned 64-bit integer, a byte an unsigned 8-bit integer, and a slot field of a header 8 bits. -/

namespace Sys2Proof

/-- A u64: a word of a word store, an index, a count, a capacity (R5). -/
abbrev Word := BitVec 64

/-- A u8: one byte of FIXED2 storage, an opcode, a fault code (R8). -/
abbrev Byte := BitVec 8

/-- A header field that names a slot: 8 bits (R21, R71). -/
abbrev SlotRef := BitVec 8

end Sys2Proof
end

