-- ==== Sys2Proof/Config.lean ====
section
/-! DEFINITION. What an implementation of the block fixes (spec 00_scope.md rule R6), and the fixed name lists of the spec: the fault codes (R250), the slot kinds (R22), the command formats (R73), the header fields (R71) and the response shapes (R82). -/

namespace Sys2Proof

/-- `F2_SHIFT_TARGET` (R6, decision D17): which byte of an oversized FIXED2 storage F2.SHIFT acts on. -/
inductive ShiftTarget where
  | first   -- byte 0
  | last    -- byte L-1
  deriving DecidableEq, Repr

/-- Three of the four implementation parameters of R6; the fourth, `NSLOT`, is the length of the slot file.
No step changes them (log 1). -/
structure Params where
  /-- `MAXW`: the largest word count of a PACKED or FULL slot. -/
  maxW : Nat
  /-- `MAXB`: the largest byte count of a FIXED2 slot. -/
  maxB : Nat
  /-- `F2_SHIFT_TARGET`. -/
  shiftTarget : ShiftTarget
  deriving DecidableEq, Repr

/-- The legal ranges of R6 for `MAXW` (0 to 2^58 - 1) and `MAXB` (1 to 2^64 - 1). -/
abbrev Params.legal (p : Params) : Prop := p.maxW < 2 ^ 58 ∧ 1 ≤ p.maxB ∧ p.maxB < 2 ^ 64

/-- The values the spec's vectors use (R6, last column). DESIGN CHOICE, unsafe (log 2): no rule fixes them. -/
def Params.vectors : Params := ⟨4, 4, .first⟩

/-- `NSLOT` as the spec's vectors use it (R6). DESIGN CHOICE, unsafe (log 2). -/
def nslotVectors : Nat := 8

/-- The fault codes of R250, by name. Their numbers are `faultNumber` in Machine/Flags.lean. -/
inductive FaultCode where
  | illegalCommand
  | badLength
  | badSlot
  | emptySlot
  | kindMismatch
  | badOperand
  | capacityExceeded
  | lengthMismatch
  deriving DecidableEq, Repr

/-- The three tags a slot value can carry besides EMPTY (R22). -/
inductive Kind where
  | fixed2
  | packed
  | full
  deriving DecidableEq, Repr

/-- The command formats of R73. -/
inductive Format where
  | h     -- [hdr]
  | hi    -- [hdr, imm]
  | hpw   -- [hdr, W, w_0, ..., w_(W-1)]
  | hpb   -- [hdr, L, p_0, ..., p_(ceil(L/8)-1)]
  deriving DecidableEq, Repr

/-- The header fields an opcode may use besides OP (R71). -/
inductive Field where
  | d | a | b | v
  deriving DecidableEq, Repr

/-- The response shapes of R82. -/
inductive Shape where
  | none | scalar | bytes | indices | status
  deriving DecidableEq, Repr

end Sys2Proof
end

