-- ==== Sys2Proof/Syntax.lean ====
section
/-! DEFINITION. The commands of the block, one constructor for each of the 36 rows of the opcode map (spec 30_encoding.md rule R76). Slot operands come in the order D, A, B, then V, then the operand word or the payload. -/

namespace Sys2Proof

/-- A decoded command. A slot operand is the header's 8-bit field, in range or not; an index, count, capacity
or shift amount is the whole operand word (R74); a payload is the list of words or bytes it carries (R75). -/
inductive Instr where
  | sysStatus                                              -- SYS.STATUS
  | f2New (d : SlotRef)                                    -- F2.NEW
  | f2From (d : SlotRef) (bytes : List Byte)               -- F2.FROM
  | f2BitAt (a : SlotRef) (idx : Word)                     -- F2.BITAT
  | f2SetBit (a : SlotRef) (v : Bool) (idx : Word)         -- F2.SETBIT
  | f2Len (a : SlotRef)                                    -- F2.LEN
  | f2Count (a : SlotRef)                                  -- F2.COUNT
  | f2Bytes (a : SlotRef)                                  -- F2.BYTES
  | f2Shift (a : SlotRef) (amount : Word)                  -- F2.SHIFT
  | f2Indices (a : SlotRef)                                -- F2.INDICES
  | pkNew (d : SlotRef) (n : Word)                         -- PK.NEW
  | pkFrom (d : SlotRef) (words : List Word)               -- PK.FROM
  | pkBitAt (a : SlotRef) (idx : Word)                     -- PK.BITAT
  | pkSetBit (a : SlotRef) (v : Bool) (idx : Word)         -- PK.SETBIT
  | pkLen (a : SlotRef)                                    -- PK.LEN
  | pkCount (a : SlotRef)                                  -- PK.COUNT
  | flNew (d : SlotRef) (n : Word)                         -- FL.NEW
  | flFrom (d : SlotRef) (words : List Word)               -- FL.FROM
  | flBitAt (a : SlotRef) (idx : Word)                     -- FL.BITAT
  | flSetBit (a : SlotRef) (v : Bool) (idx : Word)         -- FL.SETBIT
  | flLen (a : SlotRef)                                    -- FL.LEN
  | flCount (a : SlotRef)                                  -- FL.COUNT
  | flBytes (a : SlotRef)                                  -- FL.BYTES
  | flContains (a b : SlotRef)                             -- FL.CONTAINS
  | flOverlaps (a b : SlotRef)                             -- FL.OVERLAPS
  | flClone (d a : SlotRef)                                -- FL.CLONE
  | flOr (d a b : SlotRef)                                 -- FL.OR
  | flAnd (d a b : SlotRef)                                -- FL.AND
  | flXor (d a b : SlotRef)                                -- FL.XOR
  | flNot (d a : SlotRef)                                  -- FL.NOT
  | flOrNa (d a b : SlotRef)                               -- FL.OR.NA
  | flAndNa (d a b : SlotRef)                              -- FL.AND.NA
  | flXorNa (d a b : SlotRef)                              -- FL.XOR.NA
  | flNotNa (d a : SlotRef)                                -- FL.NOT.NA
  | flIndices (a : SlotRef)                                -- FL.INDICES
  | flIndicesNa (a : SlotRef) (cap : Word)                 -- FL.INDICES.NA
  deriving DecidableEq, Repr

end Sys2Proof
end

