-- ==== Sys2Proof/WellFormed.lean ====
section
/-! DEFINITION. Which commands have an encoding: a payload's count travels in one u64 operand word (spec 30_encoding.md rules R73 and R77), so it is below 2^64. Slot fields and operand words are whole bit vectors, and every value of them is encodable; a slot number out of range is the fault BAD_SLOT at run time, not an ill-formed command. -/

namespace Sys2Proof

/-- The command can be written as words of the command port. -/
def Instr.wf : Instr → Bool
  | .f2From _ bytes => decide (bytes.length < 2 ^ 64)
  | .pkFrom _ words => decide (words.length < 2 ^ 64)
  | .flFrom _ words => decide (words.length < 2 ^ 64)
  | .sysStatus | .f2New _ | .f2BitAt _ _ | .f2SetBit _ _ _ | .f2Len _ | .f2Count _ | .f2Bytes _
  | .f2Shift _ _ | .f2Indices _ | .pkNew _ _ | .pkBitAt _ _ | .pkSetBit _ _ _ | .pkLen _ | .pkCount _
  | .flNew _ _ | .flBitAt _ _ | .flSetBit _ _ _ | .flLen _ | .flCount _ | .flBytes _
  | .flContains _ _ | .flOverlaps _ _ | .flClone _ _ | .flOr _ _ _ | .flAnd _ _ _ | .flXor _ _ _
  | .flNot _ _ | .flOrNa _ _ _ | .flAndNa _ _ _ | .flXorNa _ _ _ | .flNotNa _ _ | .flIndices _
  | .flIndicesNa _ _ => true

end Sys2Proof
end

