-- ==== Sys2Proof/Decode.lean ====
section
/-! DEFINITION. The command decoder and encoder (spec 30_encoding.md rules R70 to R80), total on any list of words, with the opcode map of R76 as a list of rows. The decoder makes checks 1 to 3 of 60_exceptions.md rule R252 and names the fault code of the first that fails. The byte packing of R54, R75 and R83 stands here too. -/

namespace Sys2Proof

/-! ### Bytes in words (R54, R75, R83: byte j is bits [8*(j mod 8)+7 : 8*(j mod 8)] of word j div 8) -/

/-- The eight bytes of a word, least significant first (R52). -/
def bytesOfWord (w : Word) : List Byte := (List.range 8).map fun j => w.extractLsb' (8 * j) 8

/-- All bytes of a word list, word 0 first (R52). -/
def bytesOfWords (ws : List Word) : List Byte := ws.flatMap bytesOfWord

/-- The word whose bytes are the given ones (at most eight), least significant first, zeros above. -/
def wordOfBytes : List Byte → Word
  | [] => 0
  | b :: bs => b.setWidth 64 ||| (wordOfBytes bs <<< 8)

/-- `ceil(n / 8)` over nat (R73). -/
def ceilDiv8 (n : Nat) : Nat := n / 8 + (if n % 8 ≠ 0 then 1 else 0)

/-- Bytes packed eight to a word, the last word padded with zeros (R83). -/
def packBytes (bs : List Byte) : List Word :=
  (List.range (ceilDiv8 bs.length)).map fun q => wordOfBytes ((bs.drop (8 * q)).take 8)

/-! ### The header (R71) -/

/-- `hdr = OP + D*2^8 + A*2^16 + B*2^24 + V*2^32` (R71), RSV = 0. -/
def headerWord (op : Byte) (d a b : SlotRef) (v : Bool) : Word :=
  BitVec.ofNat 64 (op.toNat + d.toNat * 2 ^ 8 + a.toNat * 2 ^ 16 + b.toNat * 2 ^ 24 + v.toNat * 2 ^ 32)

def opOf (h : Word) : Byte := h.extractLsb' 0 8
def dOf (h : Word) : SlotRef := h.extractLsb' 8 8
def aOf (h : Word) : SlotRef := h.extractLsb' 16 8
def bOf (h : Word) : SlotRef := h.extractLsb' 24 8
def vOf (h : Word) : Bool := h.getLsbD 32
def rsvOf (h : Word) : BitVec 31 := h.extractLsb' 33 31

/-- What a row's builder gets: the header's fields, `cmd[1]` (0 where there is none) and `cmd[2..]`. -/
structure Fields where
  d : SlotRef
  a : SlotRef
  b : SlotRef
  v : Bool
  imm : Word
  payload : List Word

/-- The fields of a command with header `h` and operand words `ops`. -/
def fieldsOf (h : Word) (ops : List Word) : Fields :=
  ⟨dOf h, aOf h, bOf h, vOf h, ops.headD 0, ops.drop 1⟩

/-! ### The opcode map (R76) -/

/-- A row of the opcode map of R76. -/
structure Row where
  op : Byte
  format : Format
  fields : List Field
  kinds : List (Field × Kind)
  response : Shape
  build : Fields → Instr

/-- OP 0x01, SYS.STATUS (R259). -/
def rowsSystem : List Row :=
  [⟨0x01, .h, [], [], .status, fun _ => .sysStatus⟩]

/-- OP 0x1_, FIXED2. -/
def rowsFixed2 : List Row :=
  [⟨0x10, .h, [.d], [], .none, fun f => .f2New f.d⟩,
   ⟨0x11, .hpb, [.d], [], .none, fun f => .f2From f.d ((bytesOfWords f.payload).take f.imm.toNat)⟩,
   ⟨0x12, .hi, [.a], [(.a, .fixed2)], .scalar, fun f => .f2BitAt f.a f.imm⟩,
   ⟨0x13, .hi, [.a, .v], [(.a, .fixed2)], .none, fun f => .f2SetBit f.a f.v f.imm⟩,
   ⟨0x14, .h, [.a], [(.a, .fixed2)], .scalar, fun f => .f2Len f.a⟩,
   ⟨0x15, .h, [.a], [(.a, .fixed2)], .scalar, fun f => .f2Count f.a⟩,
   ⟨0x16, .h, [.a], [(.a, .fixed2)], .bytes, fun f => .f2Bytes f.a⟩,
   ⟨0x17, .hi, [.a], [(.a, .fixed2)], .none, fun f => .f2Shift f.a f.imm⟩,
   ⟨0x18, .h, [.a], [(.a, .fixed2)], .indices, fun f => .f2Indices f.a⟩]

/-- OP 0x2_, PACKED. -/
def rowsPacked : List Row :=
  [⟨0x20, .hi, [.d], [], .none, fun f => .pkNew f.d f.imm⟩,
   ⟨0x21, .hpw, [.d], [], .none, fun f => .pkFrom f.d f.payload⟩,
   ⟨0x22, .hi, [.a], [(.a, .packed)], .scalar, fun f => .pkBitAt f.a f.imm⟩,
   ⟨0x23, .hi, [.a, .v], [(.a, .packed)], .none, fun f => .pkSetBit f.a f.v f.imm⟩,
   ⟨0x24, .h, [.a], [(.a, .packed)], .scalar, fun f => .pkLen f.a⟩,
   ⟨0x25, .h, [.a], [(.a, .packed)], .scalar, fun f => .pkCount f.a⟩]

/-- OP 0x3_, FULL construction and access. -/
def rowsFullAccess : List Row :=
  [⟨0x30, .hi, [.d], [], .none, fun f => .flNew f.d f.imm⟩,
   ⟨0x31, .hpw, [.d], [], .none, fun f => .flFrom f.d f.payload⟩,
   ⟨0x32, .hi, [.a], [(.a, .full)], .scalar, fun f => .flBitAt f.a f.imm⟩,
   ⟨0x33, .hi, [.a, .v], [(.a, .full)], .none, fun f => .flSetBit f.a f.v f.imm⟩,
   ⟨0x34, .h, [.a], [(.a, .full)], .scalar, fun f => .flLen f.a⟩,
   ⟨0x35, .h, [.a], [(.a, .full)], .scalar, fun f => .flCount f.a⟩,
   ⟨0x36, .h, [.a], [(.a, .full)], .bytes, fun f => .flBytes f.a⟩,
   ⟨0x37, .h, [.a, .b], [(.a, .full), (.b, .full)], .scalar, fun f => .flContains f.a f.b⟩,
   ⟨0x38, .h, [.a, .b], [(.a, .full), (.b, .full)], .scalar, fun f => .flOverlaps f.a f.b⟩,
   ⟨0x39, .h, [.d, .a], [(.a, .full)], .none, fun f => .flClone f.d f.a⟩]

/-- OP 0x4_, FULL algebra (bit 3 of OP set: non-allocating). -/
def rowsFullAlgebra : List Row :=
  [⟨0x40, .h, [.d, .a, .b], [(.a, .full), (.b, .full)], .none, fun f => .flOr f.d f.a f.b⟩,
   ⟨0x41, .h, [.d, .a, .b], [(.a, .full), (.b, .full)], .none, fun f => .flAnd f.d f.a f.b⟩,
   ⟨0x42, .h, [.d, .a, .b], [(.a, .full), (.b, .full)], .none, fun f => .flXor f.d f.a f.b⟩,
   ⟨0x43, .h, [.d, .a], [(.a, .full)], .none, fun f => .flNot f.d f.a⟩,
   ⟨0x48, .h, [.d, .a, .b], [(.a, .full), (.b, .full), (.d, .full)], .none, fun f => .flOrNa f.d f.a f.b⟩,
   ⟨0x49, .h, [.d, .a, .b], [(.a, .full), (.b, .full), (.d, .full)], .none, fun f => .flAndNa f.d f.a f.b⟩,
   ⟨0x4A, .h, [.d, .a, .b], [(.a, .full), (.b, .full), (.d, .full)], .none, fun f => .flXorNa f.d f.a f.b⟩,
   ⟨0x4B, .h, [.d, .a], [(.a, .full), (.d, .full)], .none, fun f => .flNotNa f.d f.a⟩]

/-- OP 0x5_, FULL enumeration. -/
def rowsFullEnumeration : List Row :=
  [⟨0x50, .h, [.a], [(.a, .full)], .indices, fun f => .flIndices f.a⟩,
   ⟨0x51, .hi, [.a], [(.a, .full)], .indices, fun f => .flIndicesNa f.a f.imm⟩]

/-- The opcode map of R76. Every other OP value is illegal (R78). -/
def opcodeTable : List Row :=
  rowsSystem ++ rowsFixed2 ++ rowsPacked ++ rowsFullAccess ++ rowsFullAlgebra ++ rowsFullEnumeration

/-- The row of an opcode, if it has one. -/
def rowOf (op : Byte) : Option Row := opcodeTable.find? fun r => r.op == op

/-- RSV is 0 and so is every field the opcode does not use (R72). -/
def headerLegal (r : Row) (h : Word) : Bool :=
  rsvOf h == 0 && (r.fields.contains .d || dOf h == 0) && (r.fields.contains .a || aOf h == 0)
    && (r.fields.contains .b || bOf h == 0) && (r.fields.contains .v || !vOf h)

/-- The required command length in words (R77), from the format and the operand words `cmd[1..]`;
`none` where the count word itself is missing, which no length meets. -/
def requiredLength : Format → List Word → Option Nat
  | .h, _ => some 1
  | .hi, _ => some 2
  | .hpw, [] => none
  | .hpw, count :: _ => some (2 + count.toNat)
  | .hpb, [] => none
  | .hpb, count :: _ => some (2 + ceilDiv8 count.toNat)

/-- The command a word list stands for, or the fault code of the first of checks 1 to 3 of R252 that it fails. -/
def decode : List Word → Except FaultCode Instr
  | [] => .error .badLength
  | h :: ops =>
    match rowOf (opOf h) with
    | none => .error .illegalCommand
    | some r =>
      if headerLegal r h = false then .error .illegalCommand
      else if requiredLength r.format ops ≠ some (1 + ops.length) then .error .badLength
      else .ok (r.build (fieldsOf h ops))

/-! ### The encoder, written from the same rules -/

/-- The header word of a command (R71, R76). -/
def header : Instr → Word
  | .sysStatus => headerWord 0x01 0 0 0 false
  | .f2New d => headerWord 0x10 d 0 0 false
  | .f2From d _ => headerWord 0x11 d 0 0 false
  | .f2BitAt a _ => headerWord 0x12 0 a 0 false
  | .f2SetBit a v _ => headerWord 0x13 0 a 0 v
  | .f2Len a => headerWord 0x14 0 a 0 false
  | .f2Count a => headerWord 0x15 0 a 0 false
  | .f2Bytes a => headerWord 0x16 0 a 0 false
  | .f2Shift a _ => headerWord 0x17 0 a 0 false
  | .f2Indices a => headerWord 0x18 0 a 0 false
  | .pkNew d _ => headerWord 0x20 d 0 0 false
  | .pkFrom d _ => headerWord 0x21 d 0 0 false
  | .pkBitAt a _ => headerWord 0x22 0 a 0 false
  | .pkSetBit a v _ => headerWord 0x23 0 a 0 v
  | .pkLen a => headerWord 0x24 0 a 0 false
  | .pkCount a => headerWord 0x25 0 a 0 false
  | .flNew d _ => headerWord 0x30 d 0 0 false
  | .flFrom d _ => headerWord 0x31 d 0 0 false
  | .flBitAt a _ => headerWord 0x32 0 a 0 false
  | .flSetBit a v _ => headerWord 0x33 0 a 0 v
  | .flLen a => headerWord 0x34 0 a 0 false
  | .flCount a => headerWord 0x35 0 a 0 false
  | .flBytes a => headerWord 0x36 0 a 0 false
  | .flContains a b => headerWord 0x37 0 a b false
  | .flOverlaps a b => headerWord 0x38 0 a b false
  | .flClone d a => headerWord 0x39 d a 0 false
  | .flOr d a b => headerWord 0x40 d a b false
  | .flAnd d a b => headerWord 0x41 d a b false
  | .flXor d a b => headerWord 0x42 d a b false
  | .flNot d a => headerWord 0x43 d a 0 false
  | .flOrNa d a b => headerWord 0x48 d a b false
  | .flAndNa d a b => headerWord 0x49 d a b false
  | .flXorNa d a b => headerWord 0x4A d a b false
  | .flNotNa d a => headerWord 0x4B d a 0 false
  | .flIndices a => headerWord 0x50 0 a 0 false
  | .flIndicesNa a _ => headerWord 0x51 0 a 0 false

/-- The operand words `cmd[1..]` of a command (R73 to R75). Padding of an HPB payload is written as zero. -/
def operandWords : Instr → List Word
  | .f2From _ bytes => BitVec.ofNat 64 bytes.length :: packBytes bytes
  | .pkFrom _ words => BitVec.ofNat 64 words.length :: words
  | .flFrom _ words => BitVec.ofNat 64 words.length :: words
  | .f2BitAt _ idx => [idx]
  | .f2SetBit _ _ idx => [idx]
  | .f2Shift _ amount => [amount]
  | .pkNew _ n => [n]
  | .pkBitAt _ idx => [idx]
  | .pkSetBit _ _ idx => [idx]
  | .flNew _ n => [n]
  | .flBitAt _ idx => [idx]
  | .flSetBit _ _ idx => [idx]
  | .flIndicesNa _ cap => [cap]
  | .sysStatus | .f2New _ | .f2Len _ | .f2Count _ | .f2Bytes _ | .f2Indices _ | .pkLen _ | .pkCount _
  | .flLen _ | .flCount _ | .flBytes _ | .flContains _ _ | .flOverlaps _ _ | .flClone _ _
  | .flOr _ _ _ | .flAnd _ _ _ | .flXor _ _ _ | .flNot _ _ | .flOrNa _ _ _ | .flAndNa _ _ _
  | .flXorNa _ _ _ | .flNotNa _ _ | .flIndices _ => []

/-- The words of a command on the command port. -/
def encode (i : Instr) : List Word := header i :: operandWords i

/-! ### The words of a row of the opcode table -/

/-- The most words `tableCommand` pads a command to: the table gives a row its header only. -/
def tableWordLimit : Nat := 66

/-- The command whose bits are `w`, `nbits` of them, word 0 the least significant; the operand words the
opcode's format asks for beyond them are zeros. DESIGN CHOICE, safe (log 6). -/
def tableCommand (nbits w : Nat) : List Word :=
  let given : List Word := (List.range (max 1 ((nbits + 63) / 64))).map fun k =>
    BitVec.ofNat 64 ((w % 2 ^ nbits) >>> (64 * k))
  let count : Word := (given.drop 1).headD 0
  let needed := match rowOf (opOf (given.headD 0)) with
    | none => 0
    | some r => (requiredLength r.format [count]).getD 0
  given ++ List.replicate (min needed tableWordLimit - given.length) 0

/-- The instruction the decoder reads from the bits of a row of the opcode table. -/
def decodeTableWord (nbits w : Nat) : Option Instr := (decode (tableCommand nbits w)).toOption

end Sys2Proof
end

