-- ==== Sys2Proof/Machine/State.lean ====
section
/-! DEFINITION. The state of the block (spec 10_state.md): the slot file and the fault record, which are all the architectural state there is (R20), and beside them the model's own fields: the implementation parameters (log 1), the host's pending events (log 3) and the responses sent (log 4). -/

namespace Sys2Proof.Machine

open Sys2Proof

/-- A slot value (R22). -/
inductive Slot where
  | empty                                        -- holds no vector
  | fixed2 (bytes : List Byte)
  | packed (size : Word) (words : List Word)
  | full (words : List Word)
  deriving DecidableEq, Repr

/-- What the host can deliver to the block between two commands: one command as a transaction (R70), or the
reset event (R280). -/
inductive PortEvent where
  | command (words : List Word)
  | reset
  deriving DecidableEq, Repr

/-- The block. -/
structure State where
  /-- `slot[0]` to `slot[NSLOT-1]` (R20, R21); `NSLOT` is the list's length. -/
  slots : List Slot
  /-- `FAULT` (R31). -/
  fault : Bool
  /-- `FCODE` (R31). -/
  fcode : Byte
  /-- `FHDR` (R31). -/
  fhdr : Word
  /-- The model's own: `MAXW`, `MAXB` and `F2_SHIFT_TARGET` (R6, log 1). No step writes it. -/
  params : Params
  /-- The model's own: what the host sends, the next event first (R70, R86, log 3). -/
  inbox : List PortEvent
  /-- The model's own: the responses sent, the oldest first (R84, R86, log 4). -/
  responses : List (List Word)
  deriving DecidableEq, Repr

/-- Reasons for which a run of the model stops. There is none: the spec's step is one total function (R85,
R86), and every fault of R250 is a next state that records it and goes on answering (R253, R255). Safe (log 9). -/
inductive Fault where
  deriving DecidableEq, Repr

/-- Reasons for which the model refuses an instruction. -/
inductive Refusal where
  /-- An instruction with no meaning in the model; raised by an arm of exec that has none yet. Every opcode of R76 has
  its meaning, so no arm raises it. Safe: the run stops. -/
  | notModelled (mnemonic : String)
  deriving DecidableEq, Repr

/-- The reset state of a block with `nslot` slots and the parameters `p`: every slot EMPTY, the fault record
clear (R36, R280, R281); nothing pending and nothing sent yet. -/
def State.resetWith (nslot : Nat) (p : Params) : State :=
  { slots := List.replicate nslot .empty
    fault := false
    fcode := 0x00
    fhdr := 0x0000000000000000
    params := p
    inbox := []
    responses := [] }

/-- The machine right after reset (R36), with the parameter values of the spec's vectors (log 2). -/
def State.reset : State := State.resetWith nslotVectors Params.vectors

end Sys2Proof.Machine
end

