-- ==== Sys2Proof/Machine/Flags.lean ====
section
/-! DEFINITION. The block has no flags or condition codes (spec 10_state.md rule R34); its only status is the fault record. Here stand the numbers of the fault codes (R250), the response header (R81), the word SYS.STATUS reads (R259) and the truth value of a query (R5). -/

namespace Sys2Proof.Machine

open Sys2Proof

/-- The fault codes of R250. -/
def faultNumber : FaultCode → Byte
  | .illegalCommand => 0x01
  | .badLength => 0x02
  | .badSlot => 0x03
  | .emptySlot => 0x04
  | .kindMismatch => 0x05
  | .badOperand => 0x06
  | .capacityExceeded => 0x07
  | .lengthMismatch => 0x08

/-- STATUS of a command that completed (R250). -/
def statusOk : Byte := 0x00

/-- STATUS of a command refused while the block is halted; never written to FCODE (R250, R255). -/
def statusHalted : Byte := 0xFF

/-- The response header `rsp(status, op) = status + op*2^8` (R81). -/
def rsp (status op : Byte) : Word := BitVec.ofNat 64 (status.toNat + op.toNat * 2 ^ 8)

/-- A truth value as a u64 (R5). -/
def truthWord (b : Bool) : Word := if b then 1 else 0

/-- `zext_64(FAULT) + FCODE * 2^8` (R259). -/
def statusWord (s : State) : Word := BitVec.ofNat 64 (s.fault.toNat + s.fcode.toNat * 2 ^ 8)

end Sys2Proof.Machine
end

