-- ==== Sys2Proof/Machine/Operands.lean ====
section
/-! DEFINITION. The value functions the commands share: the WordStore primitive (spec 40_wordstore.md rules R100 to R108), the FIXED2 byte functions (41_fixed2.md rules R120 to R129), the trimmed serialization (43_full_access.md rule R177) and the index enumeration (45_full_enumeration.md rule R230). -/

namespace Sys2Proof.Machine

open Sys2Proof

/-! ### WordStore (40_wordstore.md) -/

/-- `wc(n)`: the exact ceiling of `n / 64` (R100). -/
def wc (n : Word) : Nat := n.toNat / 64 + (if n.toNat % 64 ≠ 0 then 1 else 0)

/-- `word_of(idx)` (R101). -/
def wordIndex (idx : Word) : Nat := idx.toNat / 64

/-- `mask_of(idx)`: the word with exactly bit `idx mod 64` set (R101). -/
def maskOf (idx : Word) : Word := BitVec.ofNat 64 (2 ^ (idx.toNat % 64))

/-- `getbit` on a word list (R102); a word past its end reads as 0, which no bounds-checked access meets (log 14). -/
def getBit (ws : List Word) (idx : Word) : Bool := (ws.getD (wordIndex idx) 0 &&& maskOf idx) != 0

/-- The word `setbit` writes back (R103). -/
def setBitWord (w : Word) (idx : Word) (v : Bool) : Word :=
  if v then w ||| maskOf idx else w &&& ~~~(maskOf idx)

/-- `setbit` on a word list (R103). -/
def setBit (ws : List Word) (idx : Word) (v : Bool) : List Word :=
  ws.set (wordIndex idx) (setBitWord (ws.getD (wordIndex idx) 0) idx v)

/-- `popcount(x)`: the number of 1 bits (R104). -/
def popcount {n : Nat} (x : BitVec n) : Nat := (List.range n).countP fun k => x.getLsbD k

/-- The population count of a word store (R104). -/
def popcountWords (ws : List Word) : Nat := (ws.map popcount).sum

/-- `lsb(w) = w AND neg_64(w)`: the lowest set bit alone (R105). -/
def lowestBit (w : Word) : Word := w &&& -w

/-- `ctz(w)`: the least `k` with `w[k] = 1` (R106); 64 for a zero word, to which it is never applied. -/
def ctz (w : Word) : Nat := ((List.range 64).find? fun k => w.getLsbD k).getD 64

/-! ### FIXED2 (41_fixed2.md) -/

/-- Logical bit `idx` of a FIXED2 storage: 0 where `idx >= 2` or the storage is not exactly one byte (R123). -/
def fixed2Bit (bytes : List Byte) (idx : Word) : Bool :=
  match bytes with
  | [b] => if idx.toNat < 2 then b.getLsbD idx.toNat else false
  | _ => false

/-- The storage after F2.SETBIT: unchanged where `idx >= 2` or it is not exactly one byte (R124). -/
def fixed2SetBit (bytes : List Byte) (idx : Word) (v : Bool) : List Byte :=
  match bytes with
  | [b] =>
    if idx.toNat < 2 then
      let mask : Byte := BitVec.ofNat 8 (2 ^ idx.toNat)
      [if v then b ||| mask else b &&& (0xFF ^^^ mask)]
    else bytes
  | _ => bytes

/-- `clamp(x, lo, hi)` (R8). -/
def clampInt (x lo hi : Int) : Int := if x < lo then lo else if hi < x then hi else x

/-- The byte F2.SHIFT writes back: shift the 8-bit byte by the clamped amount, then keep the low two bits (R128). -/
def shiftByte (b : Byte) (amount : Int) : Byte :=
  let c := clampInt amount (-2) 2
  (if 0 ≤ c then b <<< c.toNat else b >>> (-c).toNat) &&& 0x03

/-- The byte position F2.SHIFT acts on in a storage of `len` bytes (R128). -/
def shiftPosition (target : ShiftTarget) (len : Nat) : Nat :=
  match target with
  | .first => 0
  | .last => len - 1

/-- The storage after F2.SHIFT by `amount`; empty storage is unchanged (R128). -/
def fixed2Shift (target : ShiftTarget) (bytes : List Byte) (amount : Int) : List Byte :=
  let t := shiftPosition target bytes.length
  bytes.set t (shiftByte (bytes.getD t 0) amount)

/-- F2.COUNT: the 1 bits among the low two of byte 0, and 0 on empty storage (R126). -/
def fixed2Count : List Byte → Nat
  | [] => 0
  | b :: _ => popcount (b &&& 0x03)

/-- F2.BYTES: byte 0 masked to its low two bits, or nothing on empty storage (R127). -/
def fixed2Bytes : List Byte → List Byte
  | [] => []
  | b :: _ => [b &&& 0x03]

/-- F2.INDICES: the set positions among 0 and 1 of a one-byte storage, and none otherwise (R129). -/
def fixed2Indices : List Byte → List Word
  | [b] => (if b.getLsbD 0 then [0] else []) ++ (if b.getLsbD 1 then [1] else [])
  | _ => []

/-! ### Serialization (43_full_access.md) -/

/-- The bytes without their trailing zero bytes (R177). -/
def trimZeros : List Byte → List Byte
  | [] => []
  | b :: bs =>
    match trimZeros bs with
    | [] => if b = 0 then [] else [b]
    | t :: ts => b :: t :: ts

/-- FL.BYTES: all words little-endian, trimmed (R177). -/
def serialize (ws : List Word) : List Byte := trimZeros (bytesOfWords ws)

/-! ### Enumeration (45_full_enumeration.md) -/

/-- The capacity is reached: `len(xs) = cap` (R230); `none` is unbounded. -/
def atCapacity (cap : Option Nat) (xs : List Word) : Bool := cap == some xs.length

/-- The inner loop of R230 on word number `k`: emit and clear the lowest set bit until the word is zero or the
capacity is reached. Each pass clears a bit, so 64 passes are enough (log 11). -/
def enumWord (cap : Option Nat) (k : Nat) : Nat → Word → List Word → List Word
  | 0, _, xs => xs
  | fuel + 1, w, xs =>
    if w = 0 then xs
    else if atCapacity cap xs then xs
    else
      let iso := lowestBit w
      enumWord cap k fuel (w &&& ~~~iso) (xs ++ [BitVec.ofNat 64 (64 * k + ctz iso)])

/-- The outer loop of R230: words low to high, from word number `k` on. -/
def enumWords (cap : Option Nat) : Nat → List Word → List Word → List Word
  | _, [], xs => xs
  | k, w :: ws, xs => enumWords cap (k + 1) ws (enumWord cap k 64 w xs)

/-- `enumerate(A, cap)` on the words of slot A (R230). -/
def enumerate (cap : Option Nat) (ws : List Word) : List Word := enumWords cap 0 ws []

end Sys2Proof.Machine
end

