-- ==== Sys2Proof/Machine/Ops.lean ====
section
/-! DEFINITION. The named operations over the block's state: reading and writing a slot (spec 20_memory.md rule R51), the response (30_encoding.md rules R81 to R83), fault entry and the halt (60_exceptions.md rules R253 to R255), checks 4 to 9 of R252, and reset (70_reset_and_hazards.md rule R280). There is no return from a fault but reset (R256). -/

namespace Sys2Proof.Machine

open Sys2Proof

/-! ### Slots -/

/-- `slot[r]` (R9). A field that names no slot reads as EMPTY here, which check 4 of R252 lets no command see (log 14). -/
def slotAt (s : State) (r : SlotRef) : Slot := s.slots.getD r.toNat .empty

/-- `slot[r] <- v` (R9): no other slot changes (R29). -/
def setSlot (s : State) (r : SlotRef) (v : Slot) : State := { s with slots := s.slots.set r.toNat v }

/-- The tag of a slot value, none for EMPTY (R22). -/
def kindOf : Slot → Option Kind
  | .empty => none
  | .fixed2 _ => some .fixed2
  | .packed _ _ => some .packed
  | .full _ => some .full

/-- `Len(v)` (R27). EMPTY has no length; the 0 here is never used, since EMPTY_SLOT is checked first (log 14). -/
def slotLen : Slot → Nat
  | .empty => 0
  | .fixed2 _ => 2
  | .packed size _ => size.toNat
  | .full words => 64 * words.length

/-- The byte list of a FIXED2 slot (R9). -/
def bytesAt (s : State) (r : SlotRef) : List Byte :=
  match slotAt s r with
  | .fixed2 bytes => bytes
  | _ => []

/-- The word list of a PACKED or FULL slot (R9). -/
def wordsAt (s : State) (r : SlotRef) : List Word :=
  match slotAt s r with
  | .packed _ words => words
  | .full words => words
  | _ => []

/-- The declared size of a PACKED slot (R24). -/
def sizeAt (s : State) (r : SlotRef) : Word :=
  match slotAt s r with
  | .packed size _ => size
  | _ => 0

/-! ### Responses -/

/-- `respond(words)` (R9, R84). -/
def respond (s : State) (words : List Word) : State := { s with responses := s.responses ++ [words] }

/-- Shape NONE of R82. -/
def respondNone (s : State) (op : Byte) : State := respond s [rsp statusOk op]

/-- Shape SCALAR of R82. -/
def respondScalar (s : State) (op : Byte) (value : Word) : State := respond s [rsp statusOk op, value]

/-- Shape BYTES of R82: the byte count, then the bytes packed (R83). -/
def respondBytes (s : State) (op : Byte) (bytes : List Byte) : State :=
  respond s (rsp statusOk op :: BitVec.ofNat 64 bytes.length :: packBytes bytes)

/-- Shape INDICES of R82: the index count, then the indices. -/
def respondIndices (s : State) (op : Byte) (xs : List Word) : State :=
  respond s (rsp statusOk op :: BitVec.ofNat 64 xs.length :: xs)

/-- Shape STATUS of R82. -/
def respondStatus (s : State) (op : Byte) : State := respond s [rsp statusOk op, statusWord s, s.fhdr]

/-! ### Faults -/

/-- Fault entry (R253): the record is written, no slot changes. -/
def faultEntry (s : State) (c : FaultCode) (hdr : Word) : State :=
  { s with fault := true, fcode := faultNumber c, fhdr := hdr }

/-- Taking a fault: fault entry and the one-word response (R253, R254). -/
def takeFault (s : State) (c : FaultCode) (hdr : Word) : State :=
  respond (faultEntry s c hdr) [rsp (faultNumber c) (opOf hdr)]

/-- The answer to a command while the block is halted: HALTED, and no other effect (R255). -/
def answerHalted (s : State) (hdr : Word) : State := respond s [rsp statusHalted (opOf hdr)]

/-- The step of R85 on a command with header `hdr` other than SYS.STATUS: HALTED while halted, else the first
fault its validation finds, else `done`, what the command does. -/
def answer (s : State) (hdr : Word) (fault : Option FaultCode) (done : State) : State :=
  if s.fault then answerHalted s hdr
  else match fault with
    | some c => takeFault s c hdr
    | none => done

/-- The answer to a command that fails one of checks 1 to 3 of R252; an empty command has no header, and FHDR and
the opcode echo are 0 for it (R253, R254). -/
def rejectCommand (s : State) (cmd : List Word) (c : FaultCode) : State :=
  answer s (cmd.headD 0) (some c) s

/-- A command's meaning: the faults of checks 4 to 9 of R252 in order, and what it does where none applies. -/
def perform (i : Instr) (s : State) (checks : List (Option FaultCode)) (done : State) :
    Host.Outcome State Fault Refusal :=
  .next (answer s (header i) (checks.findSome? id) done)

/-! ### Checks 4 to 9 of R252 -/

/-- Check 4: a slot field the opcode uses is `>= NSLOT`. -/
def checkSlots (s : State) (rs : List SlotRef) : Option FaultCode :=
  if rs.any fun r => decide (s.slots.length ≤ r.toNat) then some .badSlot else none

/-- Checks 5 and 6, in that order: a slot of the kind signature is EMPTY; one holds another tag. -/
def checkKinds (s : State) (ks : List (SlotRef × Kind)) : Option FaultCode :=
  if ks.any fun k => (kindOf (slotAt s k.1)).isNone then some .emptySlot
  else if ks.any fun k => kindOf (slotAt s k.1) != some k.2 then some .kindMismatch
  else none

/-- Check 7: FL.NEW with a bit count that is no multiple of 64. -/
def checkMultipleOf64 (n : Word) : Option FaultCode :=
  if n.toNat % 64 ≠ 0 then some .badOperand else none

/-- Check 8: more storage than the parameter allows. -/
def checkCapacity (need limit : Nat) : Option FaultCode :=
  if limit < need then some .capacityExceeded else none

/-- Check 9: two slots of different length. -/
def checkSameLen (s : State) (x y : SlotRef) : Option FaultCode :=
  if slotLen (slotAt s x) ≠ slotLen (slotAt s y) then some .lengthMismatch else none

/-! ### Events -/

/-- The reset event (R280): every slot EMPTY, the fault record clear, no response. The parameters and the host's
side (what it sends, what it has received) are not the block's state and stay. -/
def resetEvent (s : State) : State :=
  { State.resetWith s.slots.length s.params with inbox := s.inbox, responses := s.responses }

/-- The state once the block has accepted the next event: it is no longer pending (R70). -/
def takeEvent (s : State) : State := { s with inbox := s.inbox.drop 1 }

/-- Place an event where the block accepts its next one. -/
def offerEvent (s : State) (e : PortEvent) : State := { s with inbox := e :: s.inbox }

end Sys2Proof.Machine
end

