-- ==== Sys2Proof/Machine/Fixed2.lean ====
section
/-! DEFINITION. The FIXED2 commands (spec 41_fixed2.md rules R121 to R129). -/

namespace Sys2Proof.Machine

open Sys2Proof

/-- F2.NEW (R121): a zeroed single-byte vector in slot D. -/
def execF2New (d : SlotRef) (s : State) : Host.Outcome State Fault Refusal :=
  perform (.f2New d) s [checkSlots s [d]]
    (respondNone (setSlot s d (.fixed2 [0x00])) 0x10)

/-- F2.FROM (R122): the payload bytes, stored unchanged, in slot D. -/
def execF2From (d : SlotRef) (bytes : List Byte) (s : State) : Host.Outcome State Fault Refusal :=
  perform (.f2From d bytes) s [checkSlots s [d], checkCapacity bytes.length s.params.maxB]
    (respondNone (setSlot s d (.fixed2 bytes)) 0x11)

/-- F2.BITAT (R123). -/
def execF2BitAt (a : SlotRef) (idx : Word) (s : State) : Host.Outcome State Fault Refusal :=
  perform (.f2BitAt a idx) s [checkSlots s [a], checkKinds s [(a, .fixed2)]]
    (respondScalar s 0x12 (truthWord (fixed2Bit (bytesAt s a) idx)))

/-- F2.SETBIT (R124). -/
def execF2SetBit (a : SlotRef) (v : Bool) (idx : Word) (s : State) : Host.Outcome State Fault Refusal :=
  perform (.f2SetBit a v idx) s [checkSlots s [a], checkKinds s [(a, .fixed2)]]
    (respondNone (setSlot s a (.fixed2 (fixed2SetBit (bytesAt s a) idx v))) 0x13)

/-- F2.LEN (R125): 2, whatever the storage length. -/
def execF2Len (a : SlotRef) (s : State) : Host.Outcome State Fault Refusal :=
  perform (.f2Len a) s [checkSlots s [a], checkKinds s [(a, .fixed2)]]
    (respondScalar s 0x14 2)

/-- F2.COUNT (R126). -/
def execF2Count (a : SlotRef) (s : State) : Host.Outcome State Fault Refusal :=
  perform (.f2Count a) s [checkSlots s [a], checkKinds s [(a, .fixed2)]]
    (respondScalar s 0x15 (BitVec.ofNat 64 (fixed2Count (bytesAt s a))))

/-- F2.BYTES (R127). -/
def execF2Bytes (a : SlotRef) (s : State) : Host.Outcome State Fault Refusal :=
  perform (.f2Bytes a) s [checkSlots s [a], checkKinds s [(a, .fixed2)]]
    (respondBytes s 0x16 (fixed2Bytes (bytesAt s a)))

/-- F2.SHIFT (R128): the amount is the operand word read as an i64. -/
def execF2Shift (a : SlotRef) (amount : Word) (s : State) : Host.Outcome State Fault Refusal :=
  perform (.f2Shift a amount) s [checkSlots s [a], checkKinds s [(a, .fixed2)]]
    (respondNone (setSlot s a (.fixed2 (fixed2Shift s.params.shiftTarget (bytesAt s a) amount.toInt))) 0x17)

/-- F2.INDICES (R129). -/
def execF2Indices (a : SlotRef) (s : State) : Host.Outcome State Fault Refusal :=
  perform (.f2Indices a) s [checkSlots s [a], checkKinds s [(a, .fixed2)]]
    (respondIndices s 0x18 (fixed2Indices (bytesAt s a)))

end Sys2Proof.Machine
end

