-- ==== Sys2Proof/Machine/FullAccess.lean ====
section
/-! DEFINITION. The FULL commands for construction, access, serialization, predicates and cloning (spec 43_full_access.md rules R171 to R181). -/

namespace Sys2Proof.Machine

open Sys2Proof

/-- FL.NEW (R171): `n div 64` zero words; BAD_OPERAND comes before CAPACITY_EXCEEDED. -/
def execFlNew (d : SlotRef) (n : Word) (s : State) : Host.Outcome State Fault Refusal :=
  perform (.flNew d n) s [checkSlots s [d], checkMultipleOf64 n, checkCapacity (n.toNat / 64) s.params.maxW]
    (respondNone (setSlot s d (.full (List.replicate (n.toNat / 64) 0))) 0x30)

/-- FL.FROM (R172): the payload words. -/
def execFlFrom (d : SlotRef) (words : List Word) (s : State) : Host.Outcome State Fault Refusal :=
  perform (.flFrom d words) s [checkSlots s [d], checkCapacity words.length s.params.maxW]
    (respondNone (setSlot s d (.full words)) 0x31)

/-- FL.BITAT (R173). -/
def execFlBitAt (a : SlotRef) (idx : Word) (s : State) : Host.Outcome State Fault Refusal :=
  perform (.flBitAt a idx) s [checkSlots s [a], checkKinds s [(a, .full)]]
    (respondScalar s 0x32
      (truthWord (if 64 * (wordsAt s a).length ≤ idx.toNat then false else getBit (wordsAt s a) idx)))

/-- FL.SETBIT (R174). -/
def execFlSetBit (a : SlotRef) (v : Bool) (idx : Word) (s : State) : Host.Outcome State Fault Refusal :=
  perform (.flSetBit a v idx) s [checkSlots s [a], checkKinds s [(a, .full)]]
    (respondNone
      (if idx.toNat < 64 * (wordsAt s a).length then setSlot s a (.full (setBit (wordsAt s a) idx v)) else s)
      0x33)

/-- FL.LEN (R175): `64 * W`. -/
def execFlLen (a : SlotRef) (s : State) : Host.Outcome State Fault Refusal :=
  perform (.flLen a) s [checkSlots s [a], checkKinds s [(a, .full)]]
    (respondScalar s 0x34 (BitVec.ofNat 64 (64 * (wordsAt s a).length)))

/-- FL.COUNT (R176). -/
def execFlCount (a : SlotRef) (s : State) : Host.Outcome State Fault Refusal :=
  perform (.flCount a) s [checkSlots s [a], checkKinds s [(a, .full)]]
    (respondScalar s 0x35 (BitVec.ofNat 64 (popcountWords (wordsAt s a))))

/-- FL.BYTES (R177): the trimmed little-endian serialization. -/
def execFlBytes (a : SlotRef) (s : State) : Host.Outcome State Fault Refusal :=
  perform (.flBytes a) s [checkSlots s [a], checkKinds s [(a, .full)]]
    (respondBytes s 0x36 (serialize (wordsAt s a)))

/-- FL.CONTAINS (R179): `word == (word | other_word)` for every word pair. -/
def execFlContains (a b : SlotRef) (s : State) : Host.Outcome State Fault Refusal :=
  perform (.flContains a b) s
    [checkSlots s [a, b], checkKinds s [(a, .full), (b, .full)], checkSameLen s a b]
    (respondScalar s 0x37
      (truthWord (((wordsAt s a).zip (wordsAt s b)).all fun p => p.1 == (p.1 ||| p.2))))

/-- FL.OVERLAPS (R180): some common set bit, and false for two zero-length vectors. -/
def execFlOverlaps (a b : SlotRef) (s : State) : Host.Outcome State Fault Refusal :=
  perform (.flOverlaps a b) s
    [checkSlots s [a, b], checkKinds s [(a, .full), (b, .full)], checkSameLen s a b]
    (respondScalar s 0x38
      (truthWord (if (wordsAt s a).length = 0 then false
        else ((wordsAt s a).zip (wordsAt s b)).any fun p => (p.1 &&& p.2) != 0)))

/-- FL.CLONE (R181): an independent copy of A in slot D. -/
def execFlClone (d a : SlotRef) (s : State) : Host.Outcome State Fault Refusal :=
  perform (.flClone d a) s [checkSlots s [a, d], checkKinds s [(a, .full)]]
    (respondNone (setSlot s d (.full (wordsAt s a))) 0x39)

end Sys2Proof.Machine
end

