-- ==== Sys2Proof/Machine/FullAlgebra.lean ====
section
/-! DEFINITION. The FULL set algebra (spec 44_full_algebra.md rules R200 to R209). Every command reads its sources from the state before it and then writes D (R209), so D may be A or B. -/

namespace Sys2Proof.Machine

open Sys2Proof

/-- FL.OR (R201): the word-wise union of A and B, a fresh value in slot D. -/
def execFlOr (d a b : SlotRef) (s : State) : Host.Outcome State Fault Refusal :=
  perform (.flOr d a b) s
    [checkSlots s [a, b, d], checkKinds s [(a, .full), (b, .full)], checkSameLen s a b]
    (respondNone (setSlot s d (.full (List.zipWith (fun x y => x ||| y) (wordsAt s a) (wordsAt s b)))) 0x40)

/-- FL.AND (R203): the word-wise intersection of A and B, a fresh value in slot D. -/
def execFlAnd (d a b : SlotRef) (s : State) : Host.Outcome State Fault Refusal :=
  perform (.flAnd d a b) s
    [checkSlots s [a, b, d], checkKinds s [(a, .full), (b, .full)], checkSameLen s a b]
    (respondNone (setSlot s d (.full (List.zipWith (fun x y => x &&& y) (wordsAt s a) (wordsAt s b)))) 0x41)

/-- FL.XOR (R205): the word-wise symmetric difference of A and B, a fresh value in slot D. -/
def execFlXor (d a b : SlotRef) (s : State) : Host.Outcome State Fault Refusal :=
  perform (.flXor d a b) s
    [checkSlots s [a, b, d], checkKinds s [(a, .full), (b, .full)], checkSameLen s a b]
    (respondNone (setSlot s d (.full (List.zipWith (fun x y => x ^^^ y) (wordsAt s a) (wordsAt s b)))) 0x42)

/-- FL.NOT (R207): the word-wise complement of A, a fresh value in slot D. -/
def execFlNot (d a : SlotRef) (s : State) : Host.Outcome State Fault Refusal :=
  perform (.flNot d a) s [checkSlots s [a, d], checkKinds s [(a, .full)]]
    (respondNone (setSlot s d (.full ((wordsAt s a).map fun x => ~~~x))) 0x43)

/-- FL.OR.NA (R202): the word-wise union written over every word of slot D (log 10). -/
def execFlOrNa (d a b : SlotRef) (s : State) : Host.Outcome State Fault Refusal :=
  perform (.flOrNa d a b) s
    [checkSlots s [a, b, d], checkKinds s [(a, .full), (b, .full), (d, .full)], checkSameLen s a b, checkSameLen s d a]
    (respondNone (setSlot s d (.full (List.zipWith (fun x y => x ||| y) (wordsAt s a) (wordsAt s b)))) 0x48)

/-- FL.AND.NA (R204): the word-wise intersection written over every word of slot D (log 10). -/
def execFlAndNa (d a b : SlotRef) (s : State) : Host.Outcome State Fault Refusal :=
  perform (.flAndNa d a b) s
    [checkSlots s [a, b, d], checkKinds s [(a, .full), (b, .full), (d, .full)], checkSameLen s a b, checkSameLen s d a]
    (respondNone (setSlot s d (.full (List.zipWith (fun x y => x &&& y) (wordsAt s a) (wordsAt s b)))) 0x49)

/-- FL.XOR.NA (R206): the word-wise symmetric difference written over every word of slot D (log 10). -/
def execFlXorNa (d a b : SlotRef) (s : State) : Host.Outcome State Fault Refusal :=
  perform (.flXorNa d a b) s
    [checkSlots s [a, b, d], checkKinds s [(a, .full), (b, .full), (d, .full)], checkSameLen s a b, checkSameLen s d a]
    (respondNone (setSlot s d (.full (List.zipWith (fun x y => x ^^^ y) (wordsAt s a) (wordsAt s b)))) 0x4A)

/-- FL.NOT.NA (R208): the word-wise complement written over every word of slot D (log 10). -/
def execFlNotNa (d a : SlotRef) (s : State) : Host.Outcome State Fault Refusal :=
  perform (.flNotNa d a) s
    [checkSlots s [a, d], checkKinds s [(a, .full), (d, .full)], checkSameLen s d a]
    (respondNone (setSlot s d (.full ((wordsAt s a).map fun x => ~~~x))) 0x4B)

end Sys2Proof.Machine
end

