-- ==== Sys2Proof/Machine/FullEnumeration.lean ====
section
/-! DEFINITION. The FULL index enumeration (spec 45_full_enumeration.md rules R231 and R232). -/

namespace Sys2Proof.Machine

open Sys2Proof

/-- FL.INDICES (R231): every set-bit index. -/
def execFlIndices (a : SlotRef) (s : State) : Host.Outcome State Fault Refusal :=
  perform (.flIndices a) s [checkSlots s [a], checkKinds s [(a, .full)]]
    (respondIndices s 0x50 (enumerate none (wordsAt s a)))

/-- FL.INDICES.NA (R232): at most `cap` set-bit indices, the lowest ones. -/
def execFlIndicesNa (a : SlotRef) (cap : Word) (s : State) : Host.Outcome State Fault Refusal :=
  perform (.flIndicesNa a cap) s [checkSlots s [a], checkKinds s [(a, .full)]]
    (respondIndices s 0x51 (enumerate (some cap.toNat) (wordsAt s a)))

end Sys2Proof.Machine
end

