-- ==== Sys2Proof/Machine/Packed.lean ====
section
/-! DEFINITION. The PACKED commands (spec 42_packed.md rules R151 to R156). -/

namespace Sys2Proof.Machine

open Sys2Proof

/-- PK.NEW (R151): `n` zero bits in `wc(n)` words. -/
def execPkNew (d : SlotRef) (n : Word) (s : State) : Host.Outcome State Fault Refusal :=
  perform (.pkNew d n) s [checkSlots s [d], checkCapacity (wc n) s.params.maxW]
    (respondNone (setSlot s d (.packed n (List.replicate (wc n) 0))) 0x20)

/-- PK.FROM (R152): the payload words, with size `64 * W`. -/
def execPkFrom (d : SlotRef) (words : List Word) (s : State) : Host.Outcome State Fault Refusal :=
  perform (.pkFrom d words) s [checkSlots s [d], checkCapacity words.length s.params.maxW]
    (respondNone (setSlot s d (.packed (BitVec.ofNat 64 (64 * words.length)) words)) 0x21)

/-- PK.BITAT (R153). -/
def execPkBitAt (a : SlotRef) (idx : Word) (s : State) : Host.Outcome State Fault Refusal :=
  perform (.pkBitAt a idx) s [checkSlots s [a], checkKinds s [(a, .packed)]]
    (respondScalar s 0x22
      (truthWord (if (sizeAt s a).toNat ≤ idx.toNat then false else getBit (wordsAt s a) idx)))

/-- PK.SETBIT (R154). -/
def execPkSetBit (a : SlotRef) (v : Bool) (idx : Word) (s : State) : Host.Outcome State Fault Refusal :=
  perform (.pkSetBit a v idx) s [checkSlots s [a], checkKinds s [(a, .packed)]]
    (respondNone
      (if idx.toNat < (sizeAt s a).toNat then setSlot s a (.packed (sizeAt s a) (setBit (wordsAt s a) idx v)) else s)
      0x23)

/-- PK.LEN (R155): the declared size. -/
def execPkLen (a : SlotRef) (s : State) : Host.Outcome State Fault Refusal :=
  perform (.pkLen a) s [checkSlots s [a], checkKinds s [(a, .packed)]]
    (respondScalar s 0x24 (sizeAt s a))

/-- PK.COUNT (R156): the number of indices below the size whose bit is 1. -/
def execPkCount (a : SlotRef) (s : State) : Host.Outcome State Fault Refusal :=
  perform (.pkCount a) s [checkSlots s [a], checkKinds s [(a, .packed)]]
    (respondScalar s 0x25 (BitVec.ofNat 64
      ((List.range (sizeAt s a).toNat).countP fun idx => getBit (wordsAt s a) (BitVec.ofNat 64 idx))))

end Sys2Proof.Machine
end

