-- ==== Sys2Proof/Machine/System.lean ====
section
/-! DEFINITION. The system command SYS.STATUS (spec 60_exceptions.md rule R259). -/

namespace Sys2Proof.Machine

open Sys2Proof

/-- SYS.STATUS (R259): read the fault record. It writes no state and executes while halted too (R255). -/
def execSysStatus (s : State) : Host.Outcome State Fault Refusal :=
  .next (respondStatus s 0x01)

end Sys2Proof.Machine
end

