-- ==== Sys2Proof/Machine/Dispatch.lean ====
section
/-! DEFINITION. The meaning of each instruction, one arm for each row of the opcode map (spec 30_encoding.md rule R76). -/

namespace Sys2Proof.Machine

open Sys2Proof

def exec (i : Instr) (s : State) : Host.Outcome State Fault Refusal :=
  match i with
  | .sysStatus => Sys2Proof.Machine.execSysStatus s
  | .f2New d => Sys2Proof.Machine.execF2New d s
  | .f2From d bytes => Sys2Proof.Machine.execF2From d bytes s
  | .f2BitAt a idx => Sys2Proof.Machine.execF2BitAt a idx s
  | .f2SetBit a v idx => Sys2Proof.Machine.execF2SetBit a v idx s
  | .f2Len a => Sys2Proof.Machine.execF2Len a s
  | .f2Count a => Sys2Proof.Machine.execF2Count a s
  | .f2Bytes a => Sys2Proof.Machine.execF2Bytes a s
  | .f2Shift a amount => Sys2Proof.Machine.execF2Shift a amount s
  | .f2Indices a => Sys2Proof.Machine.execF2Indices a s
  | .pkNew d n => Sys2Proof.Machine.execPkNew d n s
  | .pkFrom d words => Sys2Proof.Machine.execPkFrom d words s
  | .pkBitAt a idx => Sys2Proof.Machine.execPkBitAt a idx s
  | .pkSetBit a v idx => Sys2Proof.Machine.execPkSetBit a v idx s
  | .pkLen a => Sys2Proof.Machine.execPkLen a s
  | .pkCount a => Sys2Proof.Machine.execPkCount a s
  | .flNew d n => Sys2Proof.Machine.execFlNew d n s
  | .flFrom d words => Sys2Proof.Machine.execFlFrom d words s
  | .flBitAt a idx => Sys2Proof.Machine.execFlBitAt a idx s
  | .flSetBit a v idx => Sys2Proof.Machine.execFlSetBit a v idx s
  | .flLen a => Sys2Proof.Machine.execFlLen a s
  | .flCount a => Sys2Proof.Machine.execFlCount a s
  | .flBytes a => Sys2Proof.Machine.execFlBytes a s
  | .flContains a b => Sys2Proof.Machine.execFlContains a b s
  | .flOverlaps a b => Sys2Proof.Machine.execFlOverlaps a b s
  | .flClone d a => Sys2Proof.Machine.execFlClone d a s
  | .flOr d a b => Sys2Proof.Machine.execFlOr d a b s
  | .flAnd d a b => Sys2Proof.Machine.execFlAnd d a b s
  | .flXor d a b => Sys2Proof.Machine.execFlXor d a b s
  | .flNot d a => Sys2Proof.Machine.execFlNot d a s
  | .flOrNa d a b => Sys2Proof.Machine.execFlOrNa d a b s
  | .flAndNa d a b => Sys2Proof.Machine.execFlAndNa d a b s
  | .flXorNa d a b => Sys2Proof.Machine.execFlXorNa d a b s
  | .flNotNa d a => Sys2Proof.Machine.execFlNotNa d a s
  | .flIndices a => Sys2Proof.Machine.execFlIndices a s
  | .flIndicesNa a cap => Sys2Proof.Machine.execFlIndicesNa a cap s

end Sys2Proof.Machine
end

