-- ==== Sys2Proof/Machine/Step.lean ====
section
/-! DEFINITION. One step of the block (spec 30_encoding.md rule R85): it takes the host's next event. A command is decoded and executed, or answered with the fault of checks 1 to 3 of R252 (or HALTED, R255); the reset event is R280; with nothing pending the block waits (log 5). -/

namespace Sys2Proof.Machine

open Sys2Proof

def step (s : State) : Host.Outcome State Fault Refusal :=
  match s.inbox with
  | [] => .next s
  | .reset :: _ => .next (resetEvent (takeEvent s))
  | .command cmd :: _ =>
    match decode cmd with
    | .error c => .next (rejectCommand (takeEvent s) cmd c)
    | .ok i => exec i (takeEvent s)

/-- `s` with the command whose bits are `w` as the next event on the command port (log 6). -/
def State.withFetchWord (s : State) (nbits w : Nat) : State := offerEvent s (.command (tableCommand nbits w))

end Sys2Proof.Machine
end

