-- ==== Sys2Proof/Safety.lean ====
section
/-! DEFINITION. The terms the statements use: the logical bit and byte of a word store (spec 00_scope.md rule R7, 20_memory.md rule R52), the logical bit of a slot (10_state.md rule R28), the form every reachable state has (R6, R21 to R26, R31), the nine checks of 60_exceptions.md rule R252 over the raw words of a command, and which slot a command may write. -/

namespace Sys2Proof.Safety

open Sys2Proof Sys2Proof.Machine

/-- Bit `p` of a word store: bit `p mod 64` of word `p div 64` (R7); 0 past its end. -/
def bitOf (ws : List Word) (p : Nat) : Bool := (ws.getD (p / 64) 0).getLsbD (p % 64)

/-- Byte `j` of a word list in port order: bits [8*(j mod 8)+7 : 8*(j mod 8)] of word `j div 8` (R52, R54). -/
def byteOf (ws : List Word) (j : Nat) : Byte := (ws.getD (j / 8) 0).extractLsb' (8 * (j % 8)) 8

/-- `Bit(v, idx)` of R28; 0 for EMPTY, which has no bits. -/
def slotBit : Slot → Nat → Bool
  | .empty, _ => false
  | .fixed2 [b], p => decide (p < 2) && b.getLsbD p
  | .fixed2 _, _ => false
  | .packed size ws, p => decide (p < size.toNat) && bitOf ws p
  | .full ws, p => decide (p < 64 * ws.length) && bitOf ws p

/-- The form of a slot value (R22 to R26): sizes within the parameters, `len(words) = ceil(size/64)`, slack bits 0. -/
def SlotWf (p : Params) : Slot → Prop
  | .empty => True
  | .fixed2 bytes => bytes.length ≤ p.maxB
  | .packed size ws => ws.length = (size.toNat + 63) / 64 ∧ ws.length ≤ p.maxW ∧
      ∀ q, size.toNat ≤ q → q < 64 * ws.length → bitOf ws q = false
  | .full ws => ws.length ≤ p.maxW

/-- The fault record (R31): a code 0x01 to 0x08 once `FAULT` is 1, and all zero before. -/
def RecordWf (s : State) : Prop :=
  if s.fault then 1 ≤ s.fcode.toNat ∧ s.fcode.toNat ≤ 8 else s.fcode = 0 ∧ s.fhdr = 0

/-- The form every state of a block has: 1 to 256 slots and legal parameters (R6), well-formed slot values, and a
well-formed fault record. -/
structure Inv (s : State) : Prop where
  nslot : 1 ≤ s.slots.length ∧ s.slots.length ≤ 256
  params : s.params.legal
  slots : ∀ v ∈ s.slots, SlotWf s.params v
  record : RecordWf s

/-- A command's header names a slot field with this value (R71). -/
def fieldRef (h : Word) : Field → SlotRef
  | .a => aOf h
  | .b => bOf h
  | .d | .v => dOf h

/-- `validate(state, cmd)` of R252, over the raw words of the command and by its opcode numbers; it does not go
through the meanings. -/
def rawValidate (s : State) (cmd : List Word) : Option FaultCode :=
  match cmd with
  | [] => some .badLength
  | h :: ops =>
    match rowOf (opOf h) with
    | none => some .illegalCommand
    | some r =>
      let op := (opOf h).toNat
      let imm := (ops.headD 0).toNat
      let slotOf := fun f => s.slots.getD (fieldRef h f).toNat .empty
      if headerLegal r h = false then some .illegalCommand
      else if requiredLength r.format ops ≠ some cmd.length then some .badLength
      else if [Field.a, .b, .d].any fun f => r.fields.contains f && decide (s.slots.length ≤ (fieldRef h f).toNat) then
        some .badSlot
      else if r.kinds.any fun k => decide (slotOf k.1 = .empty) then some .emptySlot
      else if r.kinds.any fun k => decide (kindOf (slotOf k.1) ≠ some k.2) then some .kindMismatch
      else if op = 0x30 ∧ imm % 64 ≠ 0 then some .badOperand
      else if (op = 0x20 ∧ s.params.maxW < (imm + 63) / 64) ∨ (op = 0x30 ∧ s.params.maxW < imm / 64) ∨
          ((op = 0x21 ∨ op = 0x31) ∧ s.params.maxW < imm) ∨ (op = 0x11 ∧ s.params.maxB < imm) then
        some .capacityExceeded
      else if op ∈ [0x37, 0x38, 0x40, 0x41, 0x42, 0x48, 0x49, 0x4A] ∧ slotLen (slotOf .a) ≠ slotLen (slotOf .b) then
        some .lengthMismatch
      else if op ∈ [0x48, 0x49, 0x4A, 0x4B] ∧ slotLen (slotOf .d) ≠ slotLen (slotOf .a) then some .lengthMismatch
      else none

/-- The one slot a command may write: its destination, or the slot a SETBIT or a shift works on; none for a query. -/
def destination : Instr → Option SlotRef
  | .f2New d | .f2From d _ | .pkNew d _ | .pkFrom d _ | .flNew d _ | .flFrom d _ | .flClone d _ => some d
  | .f2SetBit a _ _ | .pkSetBit a _ _ | .flSetBit a _ _ | .f2Shift a _ => some a
  | .flOr d _ _ | .flAnd d _ _ | .flXor d _ _ | .flNot d _ => some d
  | .flOrNa d _ _ | .flAndNa d _ _ | .flXorNa d _ _ | .flNotNa d _ => some d
  | .sysStatus | .f2BitAt _ _ | .f2Len _ | .f2Count _ | .f2Bytes _ | .f2Indices _
  | .pkBitAt _ _ | .pkLen _ | .pkCount _
  | .flBitAt _ _ | .flLen _ | .flCount _ | .flBytes _ | .flContains _ _ | .flOverlaps _ _
  | .flIndices _ | .flIndicesNa _ _ => none

/-- The commands whose repetition changes nothing more (R58): all but F2.SHIFT by a nonzero amount, and XOR and
NOT onto one of their own sources. -/
def idempotent : Instr → Bool
  | .f2Shift _ amount => decide (amount = 0)
  | .flXor d a b | .flXorNa d a b => decide (d ≠ a) && decide (d ≠ b)
  | .flNot d a | .flNotNa d a => decide (d ≠ a)
  | .sysStatus | .f2New _ | .f2From _ _ | .f2BitAt _ _ | .f2SetBit _ _ _ | .f2Len _ | .f2Count _ | .f2Bytes _
  | .f2Indices _ | .pkNew _ _ | .pkFrom _ _ | .pkBitAt _ _ | .pkSetBit _ _ _ | .pkLen _ | .pkCount _
  | .flNew _ _ | .flFrom _ _ | .flBitAt _ _ | .flSetBit _ _ _ | .flLen _ | .flCount _ | .flBytes _
  | .flContains _ _ | .flOverlaps _ _ | .flClone _ _ | .flOr _ _ _ | .flAnd _ _ _ | .flOrNa _ _ _
  | .flAndNa _ _ _ | .flIndices _ | .flIndicesNa _ _ => true

/-- The opcodes of no row of R76, as R78 lists them. -/
def illegalOp (op : Nat) : Bool :=
  op == 0x00 || (0x02 ≤ op && op ≤ 0x0F) || (0x19 ≤ op && op ≤ 0x1F) || (0x26 ≤ op && op ≤ 0x2F) ||
    (0x3A ≤ op && op ≤ 0x3F) || (0x44 ≤ op && op ≤ 0x47) || (0x4C ≤ op && op ≤ 0x4F) || (0x52 ≤ op && op ≤ 0xFF)

/-- A response has the words its shape gives it when the command completes (R82), `hdr` being its first word. -/
def hasShape (hdr : Word) : Shape → List Word → Prop
  | .none, r => r = [hdr]
  | .scalar, r => ∃ value, r = [hdr, value]
  | .bytes, r => ∃ k qs, r = hdr :: k :: qs ∧ qs.length = (k.toNat + 7) / 8 ∧ ∀ j, k.toNat ≤ j → byteOf qs j = 0
  | .indices, r => ∃ m xs, r = hdr :: m :: xs ∧ xs.length = m.toNat
  | .status, r => ∃ x y, r = [hdr, x, y]

end Sys2Proof.Safety
end

