-- ==== Sys2Proof/Certificates/Slice0/Obligations.lean ====
section
/-! DEFINITION. The statements for the provers, each of them about the machine and none about a program. A docstring names the rules of the spec a statement formalises. A response is written out in words: its first word is STATUS + OPECHO * 2^8 (spec 30_encoding.md rule R81). -/

open Sys2Proof Sys2Proof.Machine Sys2Proof.Safety

/-! ### Encoding -/

/-- Decoding the words of any well-formed command gives it back, every operand at every value (R71, R73, R75 to R77). -/
def Obligations.DecodeEncodeRoundTrip : Prop :=
  ∀ i : Instr, i.wf = true → decode (encode i) = .ok i

/-- Every word list that decodes is the encoding of what it decodes to, header and operand words; of F2.FROM only the
padding above byte L-1 is not kept (R72, R75, R79; log 8). -/
def Obligations.EncodeDecodeGivesWords : Prop :=
  ∀ (cmd : List Word) (i : Instr), decode cmd = .ok i →
    i.wf = true ∧ header i = cmd.headD 0 ∧ (encode i).length = cmd.length ∧
      ((∀ d bytes, i ≠ .f2From d bytes) → encode i = cmd) ∧
      (∀ d bytes, i = .f2From d bytes → (encode i).take 2 = cmd.take 2 ∧
        ∀ j, j < bytes.length → byteOf (cmd.drop 2) j = bytes.getD j 0)

/-- Words written out from R71 and R76 decode to the commands they stand for. -/
def Obligations.SampleWordsDecode : Prop :=
  decode [0x0000000000000001] = .ok .sysStatus ∧
  decode [0x0000000000000011, 2, 0xFF07] = .ok (.f2From 0 [0x07, 0xFF]) ∧
  decode [0x0000000100020023, 69] = .ok (.pkSetBit 2 true 69) ∧
  decode [0x0000000000000131, 2, 5, 0] = .ok (.flFrom 1 [5, 0]) ∧
  decode [0x0000000002010440] = .ok (.flOr 4 1 2) ∧
  decode [0x000000000100024A] = .ok (.flXorNa 2 0 1) ∧
  decode [0x0000000000000051, 2] = .ok (.flIndicesNa 0 2)

/-- R78: the opcodes it lists are exactly those of no row, and a command with one faults ILLEGAL_COMMAND. -/
def Obligations.IllegalOpcodesFault : Prop :=
  (∀ op : Byte, rowOf op = none ↔ illegalOp op.toNat = true) ∧
  ∀ (s : State) (h : Word) (ops : List Word) (rest : List PortEvent),
    s.fault = false → s.inbox = .command (h :: ops) :: rest → illegalOp (h.toNat % 256) = true →
    step s = .next { s with
      inbox := rest, fault := true, fcode := 0x01, fhdr := h
      responses := s.responses ++ [[BitVec.ofNat 64 (0x01 + h.toNat % 256 * 256)]] }

/-- R72: a nonzero RSV, or a nonzero field that the opcode does not use, faults ILLEGAL_COMMAND. -/
def Obligations.UnusedFieldsMustBeZero : Prop :=
  ∀ (s : State) (h : Word) (ops : List Word) (rest : List PortEvent) (r : Row),
    s.fault = false → s.inbox = .command (h :: ops) :: rest → rowOf (opOf h) = some r →
    (h.toNat / 2 ^ 33 ≠ 0 ∨ (Field.d ∉ r.fields ∧ h.toNat / 2 ^ 8 % 256 ≠ 0) ∨
      (Field.a ∉ r.fields ∧ h.toNat / 2 ^ 16 % 256 ≠ 0) ∨ (Field.b ∉ r.fields ∧ h.toNat / 2 ^ 24 % 256 ≠ 0) ∨
      (Field.v ∉ r.fields ∧ h.toNat / 2 ^ 32 % 2 ≠ 0)) →
    step s = .next { s with
      inbox := rest, fault := true, fcode := 0x01, fhdr := h
      responses := s.responses ++ [[BitVec.ofNat 64 (0x01 + h.toNat % 256 * 256)]] }

/-- R77: a command with a legal header whose word count differs from 1 (H), 2 (HI), 2 + cmd[1] (HPW) or
2 + ceil(cmd[1] / 8) (HPB) faults BAD_LENGTH, and so does an HPW or HPB command of fewer than 2 words; one with that
word count decodes. -/
def Obligations.WrongLengthFaults : Prop :=
  ∀ (s : State) (h : Word) (ops : List Word) (rest : List PortEvent) (r : Row),
    s.fault = false → s.inbox = .command (h :: ops) :: rest → rowOf (opOf h) = some r → headerLegal r h = true →
    let right : Prop := match r.format with
      | .h => ops.length = 0
      | .hi => ops.length = 1
      | .hpw => 1 ≤ ops.length ∧ ops.length = 1 + (ops.headD 0).toNat
      | .hpb => 1 ≤ ops.length ∧ ops.length = 1 + ((ops.headD 0).toNat + 7) / 8
    (¬ right → step s = .next { s with
      inbox := rest, fault := true, fcode := 0x02, fhdr := h
      responses := s.responses ++ [[BitVec.ofNat 64 (0x02 + h.toNat % 256 * 256)]] }) ∧
    (right → ∃ i, decode (h :: ops) = .ok i)

/-! ### The step, faults, the halt, reset -/

/-- A step on a pending command that decodes is exec of what it decodes to, the command no longer pending (R70, R85). -/
def Obligations.StepRunsDecodedCommand : Prop :=
  ∀ (s : State) (cmd : List Word) (rest : List PortEvent) (i : Instr),
    s.inbox = .command cmd :: rest → decode cmd = .ok i → step s = exec i { s with inbox := rest }

/-- With nothing pending a step changes nothing. The model's own choice (log 5): the spec's step needs a command. -/
def Obligations.StepWaitsForHost : Prop :=
  ∀ s : State, s.inbox = [] → step s = .next s

/-- R252, R253, R254: the first check that fails, in the order of R252 over the raw words, is the fault the block
takes: the record is written, no slot changes, the response is one word; and a command that passes every check runs,
leaves the record alone and answers OK. -/
def Obligations.StepFollowsValidation : Prop :=
  ∀ (s : State) (cmd : List Word) (rest : List PortEvent),
    s.fault = false → s.inbox = .command cmd :: rest →
    (∀ c, rawValidate s cmd = some c →
      step s = .next { s with
        inbox := rest, fault := true, fcode := faultNumber c, fhdr := cmd.headD 0
        responses := s.responses ++ [[BitVec.ofNat 64 ((faultNumber c).toNat + (cmd.headD 0).toNat % 256 * 256)]] }) ∧
    (rawValidate s cmd = none →
      ∃ i t r, decode cmd = .ok i ∧ step s = .next t ∧ t.fault = false ∧ t.fcode = s.fcode ∧ t.fhdr = s.fhdr ∧
        t.inbox = rest ∧ t.responses = s.responses ++ [r] ∧
        r.head? = some (BitVec.ofNat 64 ((cmd.headD 0).toNat % 256 * 256)))

/-- The numbers of the fault codes (R250). -/
def Obligations.FaultCodeNumbers : Prop :=
  faultNumber .illegalCommand = 0x01 ∧ faultNumber .badLength = 0x02 ∧ faultNumber .badSlot = 0x03 ∧
  faultNumber .emptySlot = 0x04 ∧ faultNumber .kindMismatch = 0x05 ∧ faultNumber .badOperand = 0x06 ∧
  faultNumber .capacityExceeded = 0x07 ∧ faultNumber .lengthMismatch = 0x08

/-- R255: while FAULT = 1 every command but the exact one-word SYS.STATUS gets HALTED and has no effect, and no
command ends the halt; reset does. -/
def Obligations.HaltedUntilReset : Prop :=
  ∀ (s : State) (rest : List PortEvent), s.fault = true →
    (∀ cmd, s.inbox = .command cmd :: rest → cmd ≠ [0x0000000000000001] →
      step s = .next { s with
        inbox := rest
        responses := s.responses ++ [[BitVec.ofNat 64 (0xFF + (cmd.headD 0).toNat % 256 * 256)]] }) ∧
    (s.inbox = .command [0x0000000000000001] :: rest →
      step s = .next { s with
        inbox := rest
        responses := s.responses ++ [[0x100, BitVec.ofNat 64 (1 + s.fcode.toNat * 256), s.fhdr]] }) ∧
    (s.inbox = .reset :: rest → ∃ t, step s = .next t ∧ t.fault = false)

/-- R259: SYS.STATUS answers with the fault record and writes no state, halted or not; its only legal encoding is the
word 1. Any other command with its opcode is HALTED in a halted block and records nothing; otherwise it is
ILLEGAL_COMMAND if the header is another word, and BAD_LENGTH if there are more words. -/
def Obligations.SysStatusReadsRecord : Prop :=
  (∀ s : State, exec .sysStatus s = .next { s with
    responses := s.responses ++ [[0x100, BitVec.ofNat 64 ((if s.fault then 1 else 0) + s.fcode.toNat * 256), s.fhdr]] }) ∧
  ∀ (s : State) (h : Word) (ops : List Word) (rest : List PortEvent),
    h.toNat % 256 = 1 → s.inbox = .command (h :: ops) :: rest →
    step s = .next (
      if h = 1 ∧ ops = [] then { s with
        inbox := rest
        responses := s.responses ++ [[0x100, BitVec.ofNat 64 ((if s.fault then 1 else 0) + s.fcode.toNat * 256), s.fhdr]] }
      else if s.fault then { s with inbox := rest, responses := s.responses ++ [[0x1FF]] }
      else if h ≠ 1 then { s with
        inbox := rest, fault := true, fcode := 0x01, fhdr := h, responses := s.responses ++ [[0x101]] }
      else { s with
        inbox := rest, fault := true, fcode := 0x02, fhdr := h, responses := s.responses ++ [[0x102]] })

/-- R280: the reset event empties every slot and clears the fault record, and produces no response. That the
parameters and the host's side stay is the model's (log 1, 3, 4). -/
def Obligations.ResetEventClearsState : Prop :=
  ∀ (s : State) (rest : List PortEvent), s.inbox = .reset :: rest →
    step s = .next { s with
      slots := List.replicate s.slots.length .empty, fault := false, fcode := 0x00, fhdr := 0, inbox := rest }

/-- R36: after reset every slot is EMPTY and the fault record is clear, for any number of slots and any parameters; the
model's State.reset is such a state. -/
def Obligations.ResetValues : Prop :=
  (∀ (nslot : Nat) (p : Params), (State.resetWith nslot p).slots.length = nslot ∧
    (∀ n, n < nslot → (State.resetWith nslot p).slots[n]? = some .empty) ∧
    (State.resetWith nslot p).fault = false ∧ (State.resetWith nslot p).fcode = 0x00 ∧
    (State.resetWith nslot p).fhdr = 0x0000000000000000) ∧
  ∃ (nslot : Nat) (p : Params), State.reset = State.resetWith nslot p

/-- R84: every command gets exactly one response, whatever it is and whatever the state, before the next event is taken. -/
def Obligations.OneResponsePerCommand : Prop :=
  ∀ (s : State) (cmd : List Word) (rest : List PortEvent), s.inbox = .command cmd :: rest →
    ∃ t r, step s = .next t ∧ t.responses = s.responses ++ [r] ∧ r ≠ [] ∧ t.inbox = rest

/-- R32: once FAULT is 1 no command writes the fault record, and the block is halted: a command other than SYS.STATUS
changes no slot and gets HALTED. -/
def Obligations.FaultRecordSticky : Prop :=
  ∀ (s t : State) (cmd : List Word) (rest : List PortEvent),
    s.fault = true → s.inbox = .command cmd :: rest → step s = .next t →
    t.fault = true ∧ t.fcode = s.fcode ∧ t.fhdr = s.fhdr ∧ t.slots = s.slots ∧
      (cmd ≠ [0x0000000000000001] →
        t.responses = s.responses ++ [[BitVec.ofNat 64 (0xFF + (cmd.headD 0).toNat % 256 * 256)]])

/-- R253: a command that faults writes no slot; it records its code and its header word, or 0 if it had no words. -/
def Obligations.FaultsArePrecise : Prop :=
  ∀ (s t : State) (cmd : List Word) (rest : List PortEvent),
    s.fault = false → s.inbox = .command cmd :: rest → step s = .next t → t.fault = true →
    t.slots = s.slots ∧ t.params = s.params ∧ t.fhdr = cmd.headD 0 ∧ ∃ c, t.fcode = faultNumber c

/-- The form of the state (R6, R21, R22, R24, R25, R31) is kept by every step, from every state that has it. R25 marks the
slack bits' part as inferred from R151, R152 and R154. -/
def Obligations.StepKeepsInvariant : Prop :=
  ∀ s t : State, Inv s → step s = .next t → Inv t

/-- The reset state of a block with legal parameters has that form (R36), the model's State.reset among them, whose
parameter values are the model's choice (log 2). -/
def Obligations.ResetHasInvariant : Prop :=
  (∀ (nslot : Nat) (p : Params), 1 ≤ nslot → nslot ≤ 256 → p.legal → Inv (State.resetWith nslot p)) ∧ Inv State.reset

/-- No step changes the parameters or the number of slots (R6, R21; that State carries them is log 1). -/
def Obligations.StepKeepsParameters : Prop :=
  ∀ s t : State, step s = .next t → t.params = s.params ∧ t.slots.length = s.slots.length

/-- R29: a command changes no slot but its destination (R51, which says so of its writes, marks it as inferred from R29 and
R108), and neither the parameters nor what is pending; without a fault the record stays too (R31). One frame for all 36
commands. -/
def Obligations.OnlyDestinationChanges : Prop :=
  ∀ (i : Instr) (s t : State), exec i s = .next t →
    (∀ n : Nat, (∀ r, destination i = some r → r.toNat ≠ n) → t.slots[n]? = s.slots[n]?) ∧
    t.slots.length = s.slots.length ∧ t.params = s.params ∧ t.inbox = s.inbox ∧
    (t.fault = s.fault → t.fcode = s.fcode ∧ t.fhdr = s.fhdr)

/-- A query leaves every slot unchanged, and the fault record too where it does not fault. R58 marks this ("Queries have
no side effects") as its own inference from the rules of 41_fixed2.md to 45_full_enumeration.md; that a query which faults
or is halted writes no slot is R253 and R255. -/
def Obligations.QueriesHaveNoSideEffects : Prop :=
  ∀ (i : Instr) (s t : State), destination i = none → exec i s = .next t →
    t.slots = s.slots ∧ (t.fault = s.fault → t.fcode = s.fcode ∧ t.fhdr = s.fhdr)

/-- Repeating a command that completed leaves the same slots, but for a nonzero shift and for XOR and NOT onto a source.
R58 marks this ("Repeating a mutating command with the same operand words leaves the same state as issuing it once") as its
own inference: from R128 for the shift, and from the rules of 41_fixed2.md to 45_full_enumeration.md for the rest. -/
def Obligations.RepeatedCommandsAreIdempotent : Prop :=
  ∀ (i : Instr) (s t u : State), idempotent i = true → exec i s = .next t → t.fault = false → exec i t = .next u →
    u.slots = t.slots ∧ u.fault = false

/-- R82: a command that completes answers with the shape its row of the opcode map names. -/
def Obligations.ResponsesHaveTheirShape : Prop :=
  ∀ (i : Instr) (s t : State), Inv s → s.fault = false → exec i s = .next t → t.fault = false →
    ∃ r row, rowOf (opOf (header i)) = some row ∧ t.responses = s.responses ++ [r] ∧
      hasShape (BitVec.ofNat 64 ((opOf (header i)).toNat * 256)) row.response r

/-- R83: byte `j` of a packed byte sequence is bits [8*(j mod 8)+7 : 8*(j mod 8)] of word `j div 8`, and bits above the
last byte are 0. -/
def Obligations.BytePackingLittleEndian : Prop :=
  ∀ bytes : List Byte, (packBytes bytes).length = (bytes.length + 7) / 8 ∧
    ∀ j, byteOf (packBytes bytes) j = bytes.getD j 0

/-! ### FIXED2 -/

/-- R121: F2.NEW writes a zero byte into D, whatever D held. -/
def Obligations.F2NewResult : Prop :=
  ∀ (s : State) (d : SlotRef), s.fault = false → d.toNat < s.slots.length →
    exec (.f2New d) s = .next { s with
      slots := s.slots.set d.toNat (.fixed2 [0x00]), responses := s.responses ++ [[0x1000]] }

/-- R122: F2.FROM stores its bytes unchanged in D. -/
def Obligations.F2FromResult : Prop :=
  ∀ (s : State) (d : SlotRef) (bytes : List Byte),
    s.fault = false → d.toNat < s.slots.length → bytes.length ≤ s.params.maxB →
    exec (.f2From d bytes) s = .next { s with
      slots := s.slots.set d.toNat (.fixed2 bytes), responses := s.responses ++ [[0x1100]] }

/-- R123: F2.BITAT answers the logical bit of R28: 0 where `idx >= 2` or the storage is not one byte. -/
def Obligations.F2BitAtResult : Prop :=
  ∀ (s : State) (a : SlotRef) (idx : Word) (bytes : List Byte),
    s.fault = false → s.slots[a.toNat]? = some (.fixed2 bytes) →
    exec (.f2BitAt a idx) s = .next { s with
      responses := s.responses ++ [[0x1200, if slotBit (.fixed2 bytes) idx.toNat then 1 else 0]] }

/-- R124: F2.SETBIT writes bit `idx` of a one-byte storage where `idx < 2`, keeps its other bits, and changes nothing
otherwise. -/
def Obligations.F2SetBitResult : Prop :=
  ∀ (s : State) (a : SlotRef) (v : Bool) (idx : Word) (bytes : List Byte),
    s.fault = false → s.slots[a.toNat]? = some (.fixed2 bytes) →
    ∃ bytes', exec (.f2SetBit a v idx) s = .next { s with
        slots := s.slots.set a.toNat (.fixed2 bytes'), responses := s.responses ++ [[0x1300]] } ∧
      (bytes.length ≠ 1 ∨ 2 ≤ idx.toNat → bytes' = bytes) ∧
      (∀ b, bytes = [b] → idx.toNat < 2 → ∃ b', bytes' = [b'] ∧
        ∀ k, k < 8 → b'.getLsbD k = if k = idx.toNat then v else b.getLsbD k)

/-- R125, R126, R127: F2.LEN answers 2; F2.COUNT the sum of the low two bits of byte 0, 0 on empty storage; F2.BYTES
byte 0 masked to its low two bits, nothing on empty storage. That byte 0 counts in oversized storage is the spec's decision
D16 (log 12). -/
def Obligations.F2LenCountBytesResults : Prop :=
  ∀ (s : State) (a : SlotRef) (bytes : List Byte),
    s.fault = false → s.slots[a.toNat]? = some (.fixed2 bytes) →
    exec (.f2Len a) s = .next { s with responses := s.responses ++ [[0x1400, 2]] } ∧
    exec (.f2Count a) s = .next { s with
      responses := s.responses ++ [[0x1500, match bytes with
        | [] => 0
        | b :: _ => BitVec.ofNat 64 (b.toNat % 2 + b.toNat / 2 % 2)]] } ∧
    exec (.f2Bytes a) s = .next { s with
      responses := s.responses ++ [match bytes with
        | [] => [0x1600, 0]
        | b :: _ => [0x1600, 1, BitVec.ofNat 64 (b.toNat % 4)]] }

/-- R128: F2.SHIFT shifts byte `t` of a non-empty storage by the amount clamped to [-2, 2], left as an 8-bit shift and
right as a division, and keeps the low two bits; `t` is byte 0 or byte L-1 as F2_SHIFT_TARGET says; no other byte
changes, and empty storage is unchanged. Both settings of the parameter. -/
def Obligations.F2ShiftResult : Prop :=
  ∀ (s : State) (a : SlotRef) (amount : Word) (bytes : List Byte),
    s.fault = false → s.slots[a.toNat]? = some (.fixed2 bytes) →
    let t := if s.params.shiftTarget = .first then 0 else bytes.length - 1
    let c := max (-2) (min 2 amount.toInt)
    let b := (bytes.getD t 0).toNat
    let b' := if 0 ≤ c then b * 2 ^ c.toNat % 256 % 4 else b / 2 ^ (-c).toNat % 4
    (bytes = [] → exec (.f2Shift a amount) s = .next { s with responses := s.responses ++ [[0x1700]] }) ∧
    (bytes ≠ [] → exec (.f2Shift a amount) s = .next { s with
      slots := s.slots.set a.toNat (.fixed2 (bytes.set t (BitVec.ofNat 8 b'))), responses := s.responses ++ [[0x1700]] })

/-- R129: F2.INDICES answers the set positions among 0 and 1, ascending; none where the storage is not one byte. -/
def Obligations.F2IndicesResult : Prop :=
  ∀ (s : State) (a : SlotRef) (bytes : List Byte),
    s.fault = false → s.slots[a.toNat]? = some (.fixed2 bytes) →
    let xs : List Word := [0, 1].filter fun k => slotBit (.fixed2 bytes) k.toNat
    exec (.f2Indices a) s = .next { s with
      responses := s.responses ++ [0x1800 :: BitVec.ofNat 64 xs.length :: xs] }

/-- R130: no FIXED2 command faults because of the length of the storage, an index or a shift amount. -/
def Obligations.Fixed2NeverFaultsOnContents : Prop :=
  ∀ (s : State) (a : SlotRef) (bytes : List Byte) (v : Bool) (x : Word),
    s.fault = false → s.slots[a.toNat]? = some (.fixed2 bytes) →
    ∀ i ∈ [Instr.f2BitAt a x, .f2SetBit a v x, .f2Len a, .f2Count a, .f2Bytes a, .f2Shift a x, .f2Indices a],
      ∃ t, exec i s = .next t ∧ t.fault = false

/-! ### PACKED -/

/-- R151: PK.NEW makes `n` zero bits in `ceil(n/64)` words; PK.LEN then answers `n` and PK.COUNT 0. -/
def Obligations.PkNewResult : Prop :=
  ∀ (s : State) (d : SlotRef) (n : Word),
    s.fault = false → d.toNat < s.slots.length → (n.toNat + 63) / 64 ≤ s.params.maxW →
    ∃ t, exec (.pkNew d n) s = .next t ∧
      t = { s with
        slots := s.slots.set d.toNat (.packed n (List.replicate ((n.toNat + 63) / 64) 0))
        responses := s.responses ++ [[0x2000]] } ∧
      exec (.pkLen d) t = .next { t with responses := t.responses ++ [[0x2400, n]] } ∧
      exec (.pkCount d) t = .next { t with responses := t.responses ++ [[0x2500, 0]] }

/-- R152: PK.FROM stores its words in D with size `64 * W`. -/
def Obligations.PkFromResult : Prop :=
  ∀ (s : State) (d : SlotRef) (words : List Word),
    s.fault = false → d.toNat < s.slots.length → words.length ≤ s.params.maxW →
    exec (.pkFrom d words) s = .next { s with
      slots := s.slots.set d.toNat (.packed (BitVec.ofNat 64 (64 * words.length)) words)
      responses := s.responses ++ [[0x2100]] }

/-- R153: PK.BITAT answers the logical bit of R28: 0 where `idx >= size`. -/
def Obligations.PkBitAtResult : Prop :=
  ∀ (s : State) (a : SlotRef) (idx size : Word) (words : List Word),
    s.fault = false → s.slots[a.toNat]? = some (.packed size words) →
    exec (.pkBitAt a idx) s = .next { s with
      responses := s.responses ++ [[0x2200, if slotBit (.packed size words) idx.toNat then 1 else 0]] }

/-- R154: PK.SETBIT writes bit `idx` where `idx < size` and no other bit; `idx >= size` changes nothing. -/
def Obligations.PkSetBitResult : Prop :=
  ∀ (s : State) (a : SlotRef) (v : Bool) (idx size : Word) (words : List Word),
    s.fault = false → s.slots[a.toNat]? = some (.packed size words) →
    ∃ words', exec (.pkSetBit a v idx) s = .next { s with
        slots := s.slots.set a.toNat (.packed size words'), responses := s.responses ++ [[0x2300]] } ∧
      words'.length = words.length ∧
      ∀ p, p < 64 * words.length →
        bitOf words' p = if p = idx.toNat ∧ idx.toNat < size.toNat then v else bitOf words p

/-- R155, R156: PK.LEN answers the size; PK.COUNT the number of indices below the size whose bit is 1, at most the size.
Where the slot value is well-formed that is also the number of all 1 bits of the words, which R156 marks as its own
inference from R25 and R104. -/
def Obligations.PkLenCountResults : Prop :=
  ∀ (s : State) (a : SlotRef) (size : Word) (words : List Word),
    s.fault = false → s.slots[a.toNat]? = some (.packed size words) →
    let count := (List.range size.toNat).countP fun p => bitOf words p
    exec (.pkLen a) s = .next { s with responses := s.responses ++ [[0x2400, size]] } ∧
    exec (.pkCount a) s = .next { s with responses := s.responses ++ [[0x2500, BitVec.ofNat 64 count]] } ∧
    count ≤ size.toNat ∧
    (SlotWf s.params (.packed size words) →
      count = (List.range (64 * words.length)).countP fun p => bitOf words p)

/-! ### FULL: construction, access, serialization, predicates -/

/-- R171, R172, R181: FL.NEW makes `n div 64` zero words where `n` is a multiple of 64; FL.FROM stores its words;
FL.CLONE copies A into D. -/
def Obligations.FlConstructorResults : Prop :=
  ∀ (s : State) (d : SlotRef), s.fault = false → d.toNat < s.slots.length →
    (∀ n : Word, n.toNat % 64 = 0 → n.toNat / 64 ≤ s.params.maxW →
      exec (.flNew d n) s = .next { s with
        slots := s.slots.set d.toNat (.full (List.replicate (n.toNat / 64) 0)), responses := s.responses ++ [[0x3000]] }) ∧
    (∀ words : List Word, words.length ≤ s.params.maxW →
      exec (.flFrom d words) s = .next { s with
        slots := s.slots.set d.toNat (.full words), responses := s.responses ++ [[0x3100]] }) ∧
    (∀ (a : SlotRef) (words : List Word), s.slots[a.toNat]? = some (.full words) →
      exec (.flClone d a) s = .next { s with
        slots := s.slots.set d.toNat (.full words), responses := s.responses ++ [[0x3900]] })

/-- R173, R175: FL.BITAT answers the logical bit of R28, 0 where `idx >= 64*W`; FL.LEN answers `64*W`. -/
def Obligations.FlBitAtLenResults : Prop :=
  ∀ (s : State) (a : SlotRef) (idx : Word) (words : List Word),
    s.fault = false → s.slots[a.toNat]? = some (.full words) →
    exec (.flBitAt a idx) s = .next { s with
      responses := s.responses ++ [[0x3200, if slotBit (.full words) idx.toNat then 1 else 0]] } ∧
    exec (.flLen a) s = .next { s with
      responses := s.responses ++ [[0x3400, BitVec.ofNat 64 (64 * words.length)]] }

/-- R174: FL.SETBIT writes bit `idx` where `idx < 64*W` and no other bit; `idx >= 64*W` changes nothing. -/
def Obligations.FlSetBitResult : Prop :=
  ∀ (s : State) (a : SlotRef) (v : Bool) (idx : Word) (words : List Word),
    s.fault = false → s.slots[a.toNat]? = some (.full words) →
    ∃ words', exec (.flSetBit a v idx) s = .next { s with
        slots := s.slots.set a.toNat (.full words'), responses := s.responses ++ [[0x3300]] } ∧
      words'.length = words.length ∧ ∀ p, bitOf words' p =
        if p = idx.toNat ∧ idx.toNat < 64 * words.length then v else bitOf words p

/-- R176: FL.COUNT answers the number of 1 bits among all `64*W`. -/
def Obligations.FlCountResult : Prop :=
  ∀ (s : State) (a : SlotRef) (words : List Word),
    s.fault = false → s.slots[a.toNat]? = some (.full words) →
    exec (.flCount a) s = .next { s with
      responses := s.responses ++ [[0x3500,
        BitVec.ofNat 64 ((List.range (64 * words.length)).countP fun p => bitOf words p)]] }

/-- R177, R83: FL.BYTES answers the bytes of the words little-endian up to the last nonzero one: `K` is the least count
with every byte from `K` on zero, and the packed words hold exactly those bytes. -/
def Obligations.FlBytesResult : Prop :=
  ∀ (s : State) (a : SlotRef) (words : List Word),
    s.fault = false → s.slots[a.toNat]? = some (.full words) →
    ∃ (k : Nat) (qs : List Word), exec (.flBytes a) s = .next { s with
        responses := s.responses ++ [0x3600 :: BitVec.ofNat 64 k :: qs] } ∧
      k ≤ 8 * words.length ∧ (∀ j, k ≤ j → byteOf words j = 0) ∧ (k ≠ 0 → byteOf words (k - 1) ≠ 0) ∧
      qs.length = (k + 7) / 8 ∧ ∀ j, byteOf qs j = byteOf words j

/-- The round-trip law, which R178 marks as its own inference from R177: zero-extending the bytes FL.BYTES returns to `8*W` bytes and reading them back eight at a time gives the
words, and FL.BYTES on a slot with those words returns the same bytes again. -/
def Obligations.SerializationRoundTrips : Prop :=
  ∀ (s : State) (a : SlotRef) (words : List Word),
    s.fault = false → s.slots[a.toNat]? = some (.full words) →
    ∃ (bs : List Byte) (decoded : List Word),
      exec (.flBytes a) s = .next { s with
        responses := s.responses ++ [0x3600 :: BitVec.ofNat 64 bs.length :: packBytes bs] } ∧
      bs.length ≤ 8 * words.length ∧
      decoded = packBytes (bs ++ List.replicate (8 * words.length - bs.length) 0) ∧ decoded = words ∧
      ∀ (u : State) (c : SlotRef), u.fault = false → u.slots[c.toNat]? = some (.full decoded) →
        exec (.flBytes c) u = .next { u with
          responses := u.responses ++ [0x3600 :: BitVec.ofNat 64 bs.length :: packBytes bs] }

/-- R179, R180: on equal lengths FL.CONTAINS answers whether every bit set in B is set in A, FL.OVERLAPS whether some
bit is set in both; two zero-length vectors give 1 and 0. -/
def Obligations.FlPredicateResults : Prop :=
  ∀ (s : State) (a b : SlotRef) (wa wb : List Word), s.fault = false → s.slots[a.toNat]? = some (.full wa) →
    s.slots[b.toNat]? = some (.full wb) → wa.length = wb.length →
    exec (.flContains a b) s = .next { s with
      responses := s.responses ++ [[0x3700,
        if (List.range (64 * wa.length)).all fun p => !bitOf wb p || bitOf wa p then 1 else 0]] } ∧
    exec (.flOverlaps a b) s = .next { s with
      responses := s.responses ++ [[0x3800,
        if (List.range (64 * wa.length)).any fun p => bitOf wa p && bitOf wb p then 1 else 0]] }

/-! ### FULL: set algebra -/

/-- R201, R203, R205, R207, R209: the allocating forms write the word-wise union, intersection, symmetric difference and
complement into D, which may be A or B and may have held anything. -/
def Obligations.FlAllocatingAlgebraResults : Prop :=
  ∀ (s : State) (d a b : SlotRef) (wa wb : List Word), s.fault = false → d.toNat < s.slots.length →
    s.slots[a.toNat]? = some (.full wa) → s.slots[b.toNat]? = some (.full wb) → wa.length = wb.length →
    exec (.flOr d a b) s = .next { s with
      slots := s.slots.set d.toNat (.full (List.zipWith (· ||| ·) wa wb)), responses := s.responses ++ [[0x4000]] } ∧
    exec (.flAnd d a b) s = .next { s with
      slots := s.slots.set d.toNat (.full (List.zipWith (· &&& ·) wa wb)), responses := s.responses ++ [[0x4100]] } ∧
    exec (.flXor d a b) s = .next { s with
      slots := s.slots.set d.toNat (.full (List.zipWith (· ^^^ ·) wa wb)), responses := s.responses ++ [[0x4200]] } ∧
    exec (.flNot d a) s = .next { s with
      slots := s.slots.set d.toNat (.full (wa.map (~~~ ·))), responses := s.responses ++ [[0x4300]] }

/-- R202, R204, R206, R208, R209: the non-allocating forms write the same words over those of D, which holds a FULL
value of the same length. -/
def Obligations.FlNonAllocatingAlgebraResults : Prop :=
  ∀ (s : State) (d a b : SlotRef) (wa wb wd : List Word), s.fault = false →
    s.slots[a.toNat]? = some (.full wa) → s.slots[b.toNat]? = some (.full wb) → s.slots[d.toNat]? = some (.full wd) →
    wa.length = wb.length → wd.length = wa.length →
    exec (.flOrNa d a b) s = .next { s with
      slots := s.slots.set d.toNat (.full (List.zipWith (· ||| ·) wa wb)), responses := s.responses ++ [[0x4800]] } ∧
    exec (.flAndNa d a b) s = .next { s with
      slots := s.slots.set d.toNat (.full (List.zipWith (· &&& ·) wa wb)), responses := s.responses ++ [[0x4900]] } ∧
    exec (.flXorNa d a b) s = .next { s with
      slots := s.slots.set d.toNat (.full (List.zipWith (· ^^^ ·) wa wb)), responses := s.responses ++ [[0x4A00]] } ∧
    exec (.flNotNa d a) s = .next { s with
      slots := s.slots.set d.toNat (.full (wa.map (~~~ ·))), responses := s.responses ++ [[0x4B00]] }

/-- The laws R210 marks as inferred from R201, R203, R205 and R207: OR, AND and XOR are commutative; AND of X with itself is X; XOR of X with itself is zero words; NOT twice
gives the words back; the allocating and non-allocating forms give the same slots where the latter does not fault. -/
def Obligations.AlgebraLawsHold : Prop :=
  (∀ (s t u : State) (d a b : SlotRef),
    (exec (.flOr d a b) s = .next t → exec (.flOr d b a) s = .next u → t.slots = u.slots) ∧
    (exec (.flAnd d a b) s = .next t → exec (.flAnd d b a) s = .next u → t.slots = u.slots) ∧
    (exec (.flXor d a b) s = .next t → exec (.flXor d b a) s = .next u → t.slots = u.slots)) ∧
  (∀ (s : State) (d x : SlotRef) (w : List Word), s.fault = false → d.toNat < s.slots.length →
    s.slots[x.toNat]? = some (.full w) →
    (∃ t, exec (.flAnd d x x) s = .next t ∧ t.slots[d.toNat]? = some (.full w)) ∧
    (∃ t, exec (.flXor d x x) s = .next t ∧ t.slots[d.toNat]? = some (.full (List.replicate w.length 0))) ∧
    (∃ t u, exec (.flNot d x) s = .next t ∧ exec (.flNot d d) t = .next u ∧ u.slots[d.toNat]? = some (.full w))) ∧
  (∀ (s t u : State) (d a b : SlotRef), u.fault = false →
    (exec (.flOr d a b) s = .next t → exec (.flOrNa d a b) s = .next u → t.slots = u.slots) ∧
    (exec (.flAnd d a b) s = .next t → exec (.flAndNa d a b) s = .next u → t.slots = u.slots) ∧
    (exec (.flXor d a b) s = .next t → exec (.flXorNa d a b) s = .next u → t.slots = u.slots) ∧
    (exec (.flNot d a) s = .next t → exec (.flNotNa d a) s = .next u → t.slots = u.slots))

/-! ### FULL: enumeration -/

/-- R231, R232: the isolation loop of R230 produces the ascending list of every index whose bit is 1, which R230 marks as
inferred from the loop: all of it for FL.INDICES, its first `cap` elements for FL.INDICES.NA. -/
def Obligations.FlIndicesResults : Prop :=
  ∀ (s : State) (a : SlotRef) (cap : Word) (words : List Word),
    s.fault = false → s.slots[a.toNat]? = some (.full words) →
    let xs : List Word := ((List.range (64 * words.length)).filter fun p => bitOf words p).map (BitVec.ofNat 64)
    exec (.flIndices a) s = .next { s with
      responses := s.responses ++ [0x5000 :: BitVec.ofNat 64 xs.length :: xs] } ∧
    exec (.flIndicesNa a cap) s = .next { s with
      responses := s.responses ++ [0x5100 :: BitVec.ofNat 64 (xs.take cap.toNat).length :: xs.take cap.toNat] }

/-- The laws R233 marks as inferred from R230 and R176: the FL.INDICES count is the FL.COUNT result, the indices strictly ascend, and FL.INDICES.NA gives the first
`min(cap, m)` of them, in every block (at most 2^58 - 1 words a slot, R6 and R22). -/
def Obligations.EnumerationLawsHold : Prop :=
  ∀ (s : State) (a : SlotRef) (words : List Word), s.fault = false → s.slots[a.toNat]? = some (.full words) →
    words.length < 2 ^ 58 →
    ∃ (m : Word) (xs : List Word),
      exec (.flIndices a) s = .next { s with responses := s.responses ++ [0x5000 :: m :: xs] } ∧
      exec (.flCount a) s = .next { s with responses := s.responses ++ [[0x3500, m]] } ∧
      m.toNat = xs.length ∧ xs.Pairwise (fun x y => x.toNat < y.toNat) ∧
      ∀ cap : Word, exec (.flIndicesNa a cap) s = .next { s with
        responses := s.responses ++
          [0x5100 :: BitVec.ofNat 64 (min cap.toNat m.toNat) :: xs.take (min cap.toNat m.toNat)] }

/-! ### The WordStore primitive and the bounds rule -/

/-- R100: `wc(n)` is the exact ceiling of `n / 64` for every u64 `n`, at most 2^58. -/
def Obligations.WordCountIsExactCeiling : Prop :=
  (∀ n : Word, n.toNat ≤ 64 * wc n ∧ 64 * wc n < n.toNat + 64 ∧ wc n ≤ 2 ^ 58) ∧
  wc 0 = 0 ∧ wc 1 = 1 ∧ wc 64 = 1 ∧ wc 65 = 2 ∧ wc 0xFFFFFFFFFFFFFFFF = 2 ^ 58

/-- In range, `setbit` changes the addressed bit alone (R103 marks this as inferred from R101) and `getbit` reads it (R102). -/
def Obligations.SetbitChangesOneBit : Prop :=
  ∀ (ws : List Word) (idx : Word) (v : Bool), idx.toNat / 64 < ws.length →
    (setBit ws idx v).length = ws.length ∧
    (∀ p, bitOf (setBit ws idx v) p = if p = idx.toNat then v else bitOf ws p) ∧
    getBit ws idx = bitOf ws idx.toNat

/-- R105, R106: `lsb(w)` is `2^ctz(w)` for a nonzero word and 0 for 0 (R105 marks this as inferred), and `ctz(w)` is the
least set position. -/
def Obligations.LowestBitIsolated : Prop :=
  lowestBit 0 = 0 ∧ ∀ w : Word, w ≠ 0 →
    ctz w < 64 ∧ w.getLsbD (ctz w) = true ∧ (∀ k, k < ctz w → w.getLsbD k = false) ∧
    (lowestBit w).toNat = 2 ^ ctz w

/-- R108: a read at `idx >= Len` answers 0 and a write there changes no slot, in every family, and neither faults; and
below `Len` the word of an index exists, which R108 marks as inferred from R100. -/
def Obligations.OutOfBoundsIsHarmless : Prop :=
  (∀ (s : State) (a : SlotRef) (x : Slot) (idx : Word) (v : Bool), s.fault = false → s.slots[a.toNat]? = some x →
    slotLen x ≤ idx.toNat →
    ∀ k rd wr op, (k, rd, wr, op) ∈ [(Kind.fixed2, Instr.f2BitAt a idx, Instr.f2SetBit a v idx, 0x12),
        (.packed, .pkBitAt a idx, .pkSetBit a v idx, 0x22), (.full, .flBitAt a idx, .flSetBit a v idx, 0x32)] →
      kindOf x = some k →
      exec rd s = .next { s with responses := s.responses ++ [[BitVec.ofNat 64 (op * 256), 0]] } ∧
      exec wr s = .next { s with responses := s.responses ++ [[BitVec.ofNat 64 ((op + 1) * 256)]] }) ∧
  (∀ (p : Params) (size idx : Word) (ws : List Word), SlotWf p (.packed size ws) → idx.toNat < size.toNat →
    wordIndex idx < ws.length) ∧
  (∀ (idx : Word) (ws : List Word), idx.toNat < 64 * ws.length → wordIndex idx < ws.length)

/-- R123, R124, R153, R154, R173, R174: after a SETBIT of an in-range index the BITAT of that index answers the value
written. -/
def Obligations.BitAtReadsWhatSetBitWrote : Prop :=
  ∀ (s : State) (a : SlotRef) (idx : Word) (v : Bool), s.fault = false →
    (∀ b, s.slots[a.toNat]? = some (.fixed2 [b]) → idx.toNat < 2 →
      ∃ t u, exec (.f2SetBit a v idx) s = .next t ∧ exec (.f2BitAt a idx) t = .next u ∧
        u.responses = t.responses ++ [[0x1200, if v then 1 else 0]]) ∧
    (∀ size ws, s.slots[a.toNat]? = some (.packed size ws) → idx.toNat < size.toNat → idx.toNat < 64 * ws.length →
      ∃ t u, exec (.pkSetBit a v idx) s = .next t ∧ exec (.pkBitAt a idx) t = .next u ∧
        u.responses = t.responses ++ [[0x2200, if v then 1 else 0]]) ∧
    (∀ ws, s.slots[a.toNat]? = some (.full ws) → idx.toNat < 64 * ws.length →
      ∃ t u, exec (.flSetBit a v idx) s = .next t ∧ exec (.flBitAt a idx) t = .next u ∧
        u.responses = t.responses ++ [[0x3200, if v then 1 else 0]])
end

