-- ==== Sys2Proof/Laws/Encoding.lean ====
section
/-! SUPPORT. The header's fields read back, the rows of the opcode map, and the byte packing (spec 30_encoding.md rules R71, R75, R76, R83). -/

namespace Sys2Proof.Laws

open Sys2Proof Sys2Proof.Machine Sys2Proof.Safety

/-! ### Header fields (R71) -/

theorem headerWord_toNat (op : Byte) (d a b : SlotRef) (v : Bool) :
    (headerWord op d a b v).toNat =
      op.toNat + d.toNat * 2 ^ 8 + a.toNat * 2 ^ 16 + b.toNat * 2 ^ 24 + v.toNat * 2 ^ 32 := by
  unfold headerWord
  rw [BitVec.toNat_ofNat, Nat.mod_eq_of_lt]
  have := op.isLt; have := d.isLt; have := a.isLt; have := b.isLt
  cases v <;> simp <;> omega

theorem opOf_toNat (h : Word) : (opOf h).toNat = h.toNat % 2 ^ 8 := by
  simp [opOf]

theorem dOf_toNat (h : Word) : (dOf h).toNat = h.toNat / 2 ^ 8 % 2 ^ 8 := by
  simp [dOf, BitVec.extractLsb'_toNat, Nat.shiftRight_eq_div_pow]

theorem aOf_toNat (h : Word) : (aOf h).toNat = h.toNat / 2 ^ 16 % 2 ^ 8 := by
  simp [aOf, BitVec.extractLsb'_toNat, Nat.shiftRight_eq_div_pow]

theorem bOf_toNat (h : Word) : (bOf h).toNat = h.toNat / 2 ^ 24 % 2 ^ 8 := by
  simp [bOf, BitVec.extractLsb'_toNat, Nat.shiftRight_eq_div_pow]

theorem rsvOf_toNat (h : Word) : (rsvOf h).toNat = h.toNat / 2 ^ 33 := by
  simp [rsvOf, BitVec.extractLsb'_toNat, Nat.shiftRight_eq_div_pow]
  have := h.isLt
  omega

theorem vOf_eq (h : Word) : vOf h = decide (h.toNat / 2 ^ 32 % 2 = 1) := by
  simp [vOf, BitVec.getLsbD, Nat.testBit_eq_decide_div_mod_eq]

section
variable (op : Byte) (d a b : SlotRef) (v : Bool)

@[simp] theorem opOf_headerWord : opOf (headerWord op d a b v) = op := by
  apply BitVec.eq_of_toNat_eq
  rw [opOf_toNat, headerWord_toNat]
  have := op.isLt
  omega

@[simp] theorem dOf_headerWord : dOf (headerWord op d a b v) = d := by
  apply BitVec.eq_of_toNat_eq
  rw [dOf_toNat, headerWord_toNat]
  have := op.isLt; have := d.isLt
  omega

@[simp] theorem aOf_headerWord : aOf (headerWord op d a b v) = a := by
  apply BitVec.eq_of_toNat_eq
  rw [aOf_toNat, headerWord_toNat]
  have := op.isLt; have := d.isLt; have := a.isLt
  omega

@[simp] theorem bOf_headerWord : bOf (headerWord op d a b v) = b := by
  apply BitVec.eq_of_toNat_eq
  rw [bOf_toNat, headerWord_toNat]
  have := op.isLt; have := d.isLt; have := a.isLt; have := b.isLt
  omega

@[simp] theorem vOf_headerWord : vOf (headerWord op d a b v) = v := by
  rw [vOf_eq, headerWord_toNat]
  have := op.isLt; have := d.isLt; have := a.isLt; have := b.isLt
  cases v <;> simp <;> omega

@[simp] theorem rsvOf_headerWord : rsvOf (headerWord op d a b v) = 0 := by
  apply BitVec.eq_of_toNat_eq
  rw [rsvOf_toNat, headerWord_toNat]
  have := op.isLt; have := d.isLt; have := a.isLt; have := b.isLt
  cases v <;> simp <;> omega

end

/-- A header whose RSV is 0 is made of its fields. -/
theorem headerWord_fields {h : Word} (hr : rsvOf h = 0) :
    headerWord (opOf h) (dOf h) (aOf h) (bOf h) (vOf h) = h := by
  apply BitVec.eq_of_toNat_eq
  have hr' := congrArg BitVec.toNat hr
  rw [rsvOf_toNat] at hr'
  rw [headerWord_toNat, opOf_toNat, dOf_toNat, aOf_toNat, bOf_toNat, vOf_eq]
  change h.toNat / 2 ^ 33 = 0 at hr'
  by_cases hv : h.toNat / 2 ^ 32 % 2 = 1 <;> simp only [hv, decide_true, decide_false, Bool.toNat_true, Bool.toNat_false] <;> omega


/-! ### The rows of the opcode map (R76, R78) -/

/-- The opcode of a command has a row. -/
theorem rowOf_header (i : Instr) : ∃ r, rowOf (opOf (header i)) = some r ∧ headerLegal r (header i) = true := by
  cases i <;>
    refine ⟨_, (by rw [header, opOf_headerWord]; rfl), ?_⟩ <;>
    simp [headerLegal, header]

end Sys2Proof.Laws
end

