-- ==== Sys2Proof/Laws/State.lean ====
section
/-! SUPPORT. What each named update of the state does to each field of State, one lemma for each, so that no proof unfolds a record update. -/

namespace Sys2Proof.Laws

open Sys2Proof Sys2Proof.Machine

@[simp] theorem setSlot_slots (s : State) (r : SlotRef) (v : Slot) : (setSlot s r v).slots = s.slots.set r.toNat v := rfl
@[simp] theorem setSlot_fault (s : State) (r : SlotRef) (v : Slot) : (setSlot s r v).fault = s.fault := rfl
@[simp] theorem setSlot_fcode (s : State) (r : SlotRef) (v : Slot) : (setSlot s r v).fcode = s.fcode := rfl
@[simp] theorem setSlot_fhdr (s : State) (r : SlotRef) (v : Slot) : (setSlot s r v).fhdr = s.fhdr := rfl
@[simp] theorem setSlot_params (s : State) (r : SlotRef) (v : Slot) : (setSlot s r v).params = s.params := rfl
@[simp] theorem setSlot_inbox (s : State) (r : SlotRef) (v : Slot) : (setSlot s r v).inbox = s.inbox := rfl
@[simp] theorem setSlot_responses (s : State) (r : SlotRef) (v : Slot) : (setSlot s r v).responses = s.responses := rfl

@[simp] theorem respond_slots (s : State) (ws : List Word) : (respond s ws).slots = s.slots := rfl
@[simp] theorem respond_fault (s : State) (ws : List Word) : (respond s ws).fault = s.fault := rfl
@[simp] theorem respond_fcode (s : State) (ws : List Word) : (respond s ws).fcode = s.fcode := rfl
@[simp] theorem respond_fhdr (s : State) (ws : List Word) : (respond s ws).fhdr = s.fhdr := rfl
@[simp] theorem respond_params (s : State) (ws : List Word) : (respond s ws).params = s.params := rfl
@[simp] theorem respond_inbox (s : State) (ws : List Word) : (respond s ws).inbox = s.inbox := rfl
@[simp] theorem respond_responses (s : State) (ws : List Word) : (respond s ws).responses = s.responses ++ [ws] := rfl

@[simp] theorem faultEntry_slots (s : State) (c : FaultCode) (h : Word) : (faultEntry s c h).slots = s.slots := rfl
@[simp] theorem faultEntry_fault (s : State) (c : FaultCode) (h : Word) : (faultEntry s c h).fault = true := rfl
@[simp] theorem faultEntry_fcode (s : State) (c : FaultCode) (h : Word) : (faultEntry s c h).fcode = faultNumber c := rfl
@[simp] theorem faultEntry_fhdr (s : State) (c : FaultCode) (h : Word) : (faultEntry s c h).fhdr = h := rfl
@[simp] theorem faultEntry_params (s : State) (c : FaultCode) (h : Word) : (faultEntry s c h).params = s.params := rfl
@[simp] theorem faultEntry_inbox (s : State) (c : FaultCode) (h : Word) : (faultEntry s c h).inbox = s.inbox := rfl
@[simp] theorem faultEntry_responses (s : State) (c : FaultCode) (h : Word) : (faultEntry s c h).responses = s.responses := rfl

@[simp] theorem takeFault_slots (s : State) (c : FaultCode) (h : Word) : (takeFault s c h).slots = s.slots := rfl
@[simp] theorem takeFault_fault (s : State) (c : FaultCode) (h : Word) : (takeFault s c h).fault = true := rfl
@[simp] theorem takeFault_fcode (s : State) (c : FaultCode) (h : Word) : (takeFault s c h).fcode = faultNumber c := rfl
@[simp] theorem takeFault_fhdr (s : State) (c : FaultCode) (h : Word) : (takeFault s c h).fhdr = h := rfl
@[simp] theorem takeFault_params (s : State) (c : FaultCode) (h : Word) : (takeFault s c h).params = s.params := rfl
@[simp] theorem takeFault_inbox (s : State) (c : FaultCode) (h : Word) : (takeFault s c h).inbox = s.inbox := rfl
@[simp] theorem takeFault_responses (s : State) (c : FaultCode) (h : Word) : (takeFault s c h).responses = s.responses ++ [[rsp (faultNumber c) (opOf h)]] := rfl

@[simp] theorem answerHalted_slots (s : State) (h : Word) : (answerHalted s h).slots = s.slots := rfl
@[simp] theorem answerHalted_fault (s : State) (h : Word) : (answerHalted s h).fault = s.fault := rfl
@[simp] theorem answerHalted_fcode (s : State) (h : Word) : (answerHalted s h).fcode = s.fcode := rfl
@[simp] theorem answerHalted_fhdr (s : State) (h : Word) : (answerHalted s h).fhdr = s.fhdr := rfl
@[simp] theorem answerHalted_params (s : State) (h : Word) : (answerHalted s h).params = s.params := rfl
@[simp] theorem answerHalted_inbox (s : State) (h : Word) : (answerHalted s h).inbox = s.inbox := rfl
@[simp] theorem answerHalted_responses (s : State) (h : Word) : (answerHalted s h).responses = s.responses ++ [[rsp statusHalted (opOf h)]] := rfl

@[simp] theorem takeEvent_slots (s : State) : (takeEvent s).slots = s.slots := rfl
@[simp] theorem takeEvent_fault (s : State) : (takeEvent s).fault = s.fault := rfl
@[simp] theorem takeEvent_fcode (s : State) : (takeEvent s).fcode = s.fcode := rfl
@[simp] theorem takeEvent_fhdr (s : State) : (takeEvent s).fhdr = s.fhdr := rfl
@[simp] theorem takeEvent_params (s : State) : (takeEvent s).params = s.params := rfl
@[simp] theorem takeEvent_inbox (s : State) : (takeEvent s).inbox = s.inbox.drop 1 := rfl
@[simp] theorem takeEvent_responses (s : State) : (takeEvent s).responses = s.responses := rfl

@[simp] theorem offerEvent_slots (s : State) (e : PortEvent) : (offerEvent s e).slots = s.slots := rfl
@[simp] theorem offerEvent_fault (s : State) (e : PortEvent) : (offerEvent s e).fault = s.fault := rfl
@[simp] theorem offerEvent_fcode (s : State) (e : PortEvent) : (offerEvent s e).fcode = s.fcode := rfl
@[simp] theorem offerEvent_fhdr (s : State) (e : PortEvent) : (offerEvent s e).fhdr = s.fhdr := rfl
@[simp] theorem offerEvent_params (s : State) (e : PortEvent) : (offerEvent s e).params = s.params := rfl
@[simp] theorem offerEvent_inbox (s : State) (e : PortEvent) : (offerEvent s e).inbox = e :: s.inbox := rfl
@[simp] theorem offerEvent_responses (s : State) (e : PortEvent) : (offerEvent s e).responses = s.responses := rfl

@[simp] theorem resetEvent_slots (s : State) : (resetEvent s).slots = List.replicate s.slots.length .empty := rfl
@[simp] theorem resetEvent_fault (s : State) : (resetEvent s).fault = false := rfl
@[simp] theorem resetEvent_fcode (s : State) : (resetEvent s).fcode = 0x00 := rfl
@[simp] theorem resetEvent_fhdr (s : State) : (resetEvent s).fhdr = 0x0000000000000000 := rfl
@[simp] theorem resetEvent_params (s : State) : (resetEvent s).params = s.params := rfl
@[simp] theorem resetEvent_inbox (s : State) : (resetEvent s).inbox = s.inbox := rfl
@[simp] theorem resetEvent_responses (s : State) : (resetEvent s).responses = s.responses := rfl

@[simp] theorem respondNone_slots (s : State) (op : Byte) : (respondNone s op).slots = s.slots := rfl
@[simp] theorem respondNone_fault (s : State) (op : Byte) : (respondNone s op).fault = s.fault := rfl
@[simp] theorem respondNone_fcode (s : State) (op : Byte) : (respondNone s op).fcode = s.fcode := rfl
@[simp] theorem respondNone_fhdr (s : State) (op : Byte) : (respondNone s op).fhdr = s.fhdr := rfl
@[simp] theorem respondNone_params (s : State) (op : Byte) : (respondNone s op).params = s.params := rfl
@[simp] theorem respondNone_inbox (s : State) (op : Byte) : (respondNone s op).inbox = s.inbox := rfl
@[simp] theorem respondNone_responses (s : State) (op : Byte) : (respondNone s op).responses = s.responses ++ [[rsp statusOk op]] := rfl

@[simp] theorem respondScalar_slots (s : State) (op : Byte) (x : Word) : (respondScalar s op x).slots = s.slots := rfl
@[simp] theorem respondScalar_fault (s : State) (op : Byte) (x : Word) : (respondScalar s op x).fault = s.fault := rfl
@[simp] theorem respondScalar_fcode (s : State) (op : Byte) (x : Word) : (respondScalar s op x).fcode = s.fcode := rfl
@[simp] theorem respondScalar_fhdr (s : State) (op : Byte) (x : Word) : (respondScalar s op x).fhdr = s.fhdr := rfl
@[simp] theorem respondScalar_params (s : State) (op : Byte) (x : Word) : (respondScalar s op x).params = s.params := rfl
@[simp] theorem respondScalar_inbox (s : State) (op : Byte) (x : Word) : (respondScalar s op x).inbox = s.inbox := rfl
@[simp] theorem respondScalar_responses (s : State) (op : Byte) (x : Word) : (respondScalar s op x).responses = s.responses ++ [[rsp statusOk op, x]] := rfl

@[simp] theorem respondBytes_slots (s : State) (op : Byte) (bs : List Byte) : (respondBytes s op bs).slots = s.slots := rfl
@[simp] theorem respondBytes_fault (s : State) (op : Byte) (bs : List Byte) : (respondBytes s op bs).fault = s.fault := rfl
@[simp] theorem respondBytes_fcode (s : State) (op : Byte) (bs : List Byte) : (respondBytes s op bs).fcode = s.fcode := rfl
@[simp] theorem respondBytes_fhdr (s : State) (op : Byte) (bs : List Byte) : (respondBytes s op bs).fhdr = s.fhdr := rfl
@[simp] theorem respondBytes_params (s : State) (op : Byte) (bs : List Byte) : (respondBytes s op bs).params = s.params := rfl
@[simp] theorem respondBytes_inbox (s : State) (op : Byte) (bs : List Byte) : (respondBytes s op bs).inbox = s.inbox := rfl
@[simp] theorem respondBytes_responses (s : State) (op : Byte) (bs : List Byte) : (respondBytes s op bs).responses = s.responses ++ [rsp statusOk op :: BitVec.ofNat 64 bs.length :: packBytes bs] := rfl

@[simp] theorem respondIndices_slots (s : State) (op : Byte) (xs : List Word) : (respondIndices s op xs).slots = s.slots := rfl
@[simp] theorem respondIndices_fault (s : State) (op : Byte) (xs : List Word) : (respondIndices s op xs).fault = s.fault := rfl
@[simp] theorem respondIndices_fcode (s : State) (op : Byte) (xs : List Word) : (respondIndices s op xs).fcode = s.fcode := rfl
@[simp] theorem respondIndices_fhdr (s : State) (op : Byte) (xs : List Word) : (respondIndices s op xs).fhdr = s.fhdr := rfl
@[simp] theorem respondIndices_params (s : State) (op : Byte) (xs : List Word) : (respondIndices s op xs).params = s.params := rfl
@[simp] theorem respondIndices_inbox (s : State) (op : Byte) (xs : List Word) : (respondIndices s op xs).inbox = s.inbox := rfl
@[simp] theorem respondIndices_responses (s : State) (op : Byte) (xs : List Word) : (respondIndices s op xs).responses = s.responses ++ [rsp statusOk op :: BitVec.ofNat 64 xs.length :: xs] := rfl

@[simp] theorem respondStatus_slots (s : State) (op : Byte) : (respondStatus s op).slots = s.slots := rfl
@[simp] theorem respondStatus_fault (s : State) (op : Byte) : (respondStatus s op).fault = s.fault := rfl
@[simp] theorem respondStatus_fcode (s : State) (op : Byte) : (respondStatus s op).fcode = s.fcode := rfl
@[simp] theorem respondStatus_fhdr (s : State) (op : Byte) : (respondStatus s op).fhdr = s.fhdr := rfl
@[simp] theorem respondStatus_params (s : State) (op : Byte) : (respondStatus s op).params = s.params := rfl
@[simp] theorem respondStatus_inbox (s : State) (op : Byte) : (respondStatus s op).inbox = s.inbox := rfl
@[simp] theorem respondStatus_responses (s : State) (op : Byte) : (respondStatus s op).responses = s.responses ++ [[rsp statusOk op, statusWord s, s.fhdr]] := rfl


end Sys2Proof.Laws
end

