-- ==== Sys2Proof/Laws/Ops.lean ====
section
/-! SUPPORT. What the shared operations can do, said once: reading and writing a slot, when each check passes, and the three ways a command ends (spec 30_encoding.md rule R85, 60_exceptions.md rules R252 to R255). The provers cite these and unfold no operation. -/

namespace Sys2Proof.Laws

open Sys2Proof Sys2Proof.Machine Sys2Proof.Safety

/-! ### Slots -/

theorem slotAt_of_getElem {s : State} {r : SlotRef} {v : Slot} (h : s.slots[r.toNat]? = some v) : slotAt s r = v := by
  simp [slotAt, h]

theorem slotAt_of_le {s : State} {r : SlotRef} (h : s.slots.length ≤ r.toNat) : slotAt s r = .empty := by
  simp [slotAt, h]

theorem getElem_of_slotAt {s : State} {r : SlotRef} {v : Slot} (h : slotAt s r = v) (hv : v ≠ .empty) :
    s.slots[r.toNat]? = some v := by
  unfold slotAt at h
  cases hs : s.slots[r.toNat]? <;> simp_all

theorem inRange_of_getElem {s : State} {r : SlotRef} {v : Slot} (h : s.slots[r.toNat]? = some v) :
    r.toNat < s.slots.length := by
  rcases List.getElem?_eq_some_iff.1 h with ⟨h', -⟩
  exact h'

theorem slotAt_setSlot_same {s : State} {r : SlotRef} (v : Slot) (h : r.toNat < s.slots.length) :
    slotAt (setSlot s r v) r = v := by
  simp [slotAt, h]

theorem slotAt_setSlot_ne {s : State} {r q : SlotRef} (v : Slot) (h : r ≠ q) :
    slotAt (setSlot s r v) q = slotAt s q := by
  have : r.toNat ≠ q.toNat := fun e => h (BitVec.eq_of_toNat_eq e)
  simp [slotAt, this]

/-- Writing a slot's own value back changes nothing. -/
theorem set_self {s : State} {r : SlotRef} {v : Slot} (h : s.slots[r.toNat]? = some v) :
    s.slots.set r.toNat v = s.slots := by
  apply List.ext_getElem?
  intro n
  rw [List.getElem?_set]
  split
  · next e => subst e; rw [if_pos (inRange_of_getElem h), h]
  · rfl

/-! ### Checks (R252) -/

@[simp] theorem checkSlots_eq_none {s : State} {rs : List SlotRef} :
    checkSlots s rs = none ↔ ∀ r ∈ rs, r.toNat < s.slots.length := by
  simp [checkSlots]

@[simp] theorem checkKinds_eq_none {s : State} {ks : List (SlotRef × Kind)} :
    checkKinds s ks = none ↔ ∀ k ∈ ks, kindOf (slotAt s k.1) = some k.2 := by
  unfold checkKinds
  constructor
  · intro h k hk
    split at h
    · cases h
    · split at h
      · cases h
      · next h2 =>
        simp only [List.any_eq_true, not_exists, not_and] at h2
        simpa using h2 k hk
  · intro h
    rw [if_neg, if_neg]
    · simp only [List.any_eq_true, not_exists, not_and]
      intro k hk
      simp [h k hk]
    · simp only [List.any_eq_true, not_exists, not_and]
      intro k hk
      simp [h k hk]

@[simp] theorem checkMultipleOf64_eq_none {n : Word} : checkMultipleOf64 n = none ↔ n.toNat % 64 = 0 := by
  simp [checkMultipleOf64]

@[simp] theorem checkCapacity_eq_none {need limit : Nat} : checkCapacity need limit = none ↔ need ≤ limit := by
  simp [checkCapacity]

@[simp] theorem checkSameLen_eq_none {s : State} {x y : SlotRef} :
    checkSameLen s x y = none ↔ slotLen (slotAt s x) = slotLen (slotAt s y) := by
  simp [checkSameLen]

/-! ### Kinds -/

@[simp] theorem kindOf_eq_fixed2 {v : Slot} : kindOf v = some .fixed2 ↔ ∃ bytes, v = .fixed2 bytes := by
  cases v <;> simp [kindOf]

@[simp] theorem kindOf_eq_packed {v : Slot} : kindOf v = some .packed ↔ ∃ size words, v = .packed size words := by
  cases v <;> simp [kindOf]

@[simp] theorem kindOf_eq_full {v : Slot} : kindOf v = some .full ↔ ∃ words, v = .full words := by
  cases v <;> simp [kindOf]

theorem bytesAt_of {s : State} {r : SlotRef} {bytes : List Byte} (h : slotAt s r = .fixed2 bytes) :
    bytesAt s r = bytes := by simp [bytesAt, h]

theorem wordsAt_of_full {s : State} {r : SlotRef} {words : List Word} (h : slotAt s r = .full words) :
    wordsAt s r = words := by simp [wordsAt, h]

theorem wordsAt_of_packed {s : State} {r : SlotRef} {size : Word} {words : List Word}
    (h : slotAt s r = .packed size words) : wordsAt s r = words := by simp [wordsAt, h]

theorem sizeAt_of {s : State} {r : SlotRef} {size : Word} {words : List Word}
    (h : slotAt s r = .packed size words) : sizeAt s r = size := by simp [sizeAt, h]

/-! ### The three ways a command ends (R85) -/

/-- Every check passes and the block is not halted: the command does what it does. -/
theorem perform_completes {i : Instr} {s : State} {checks : List (Option FaultCode)} {done : State}
    (hf : s.fault = false) (hc : ∀ c ∈ checks, c = none) : perform i s checks done = .next done := by
  have : checks.findSome? id = none := by simpa [List.findSome?_eq_none_iff] using hc
  simp [perform, answer, hf, this]

/-- What a command other than SYS.STATUS can do: HALTED, its first fault, or its effect. -/
theorem perform_cases {i : Instr} {s t : State} {checks : List (Option FaultCode)} {done : State}
    (h : perform i s checks done = .next t) :
    (s.fault = true ∧ t = answerHalted s (header i)) ∨
    (s.fault = false ∧ ∃ c, checks.findSome? id = some c ∧ t = takeFault s c (header i)) ∨
    (s.fault = false ∧ (∀ c ∈ checks, c = none) ∧ t = done) := by
  simp only [perform, answer, Host.Outcome.next.injEq] at h
  split at h
  · next hf => exact .inl ⟨hf, h.symm⟩
  · next hf =>
    have hf : s.fault = false := by simpa using hf
    split at h
    · next c hc => exact .inr (.inl ⟨hf, c, hc, h.symm⟩)
    · next hc => exact .inr (.inr ⟨hf, by simpa [List.findSome?_eq_none_iff] using hc, h.symm⟩)

/-- A command that ends without a fault has passed its checks and done what it does. -/
theorem perform_completed {i : Instr} {s t : State} {checks : List (Option FaultCode)} {done : State}
    (h : perform i s checks done = .next t) (hf : t.fault = false) :
    s.fault = false ∧ (∀ c ∈ checks, c = none) ∧ t = done := by
  rcases perform_cases h with ⟨hs, rfl⟩ | ⟨_, c, _, rfl⟩ | h'
  · simp [hs] at hf
  · simp at hf
  · exact h'

end Sys2Proof.Laws
end

