-- ==== Sys2Proof/Laws/Exec.lean ====
section
/-! SUPPORT. What any command can do, said once for all 36: the effect of a command that completes, and the three ways exec ends. The whole-machine statements follow from these without a look at the meanings. -/

namespace Sys2Proof.Laws

open Sys2Proof Sys2Proof.Machine Sys2Proof.Safety

/-- What a completing command leaves of `s`: the record, the parameters and the pending events are the same, there is
one response more, whose header is OK and the opcode, and at most the destination slot is written. -/
structure Effect (i : Instr) (s t : State) : Prop where
  fault : t.fault = s.fault
  fcode : t.fcode = s.fcode
  fhdr : t.fhdr = s.fhdr
  params : t.params = s.params
  inbox : t.inbox = s.inbox
  responses : ∃ ws, t.responses = s.responses ++ [rsp statusOk (opOf (header i)) :: ws]
  slots : t.slots = s.slots ∨ ∃ d v, destination i = some d ∧ t.slots = s.slots.set d.toNat v

/-- A query's effect: it responds and writes no slot. -/
theorem effect_respond {i : Instr} {s : State} {op : Byte} {ws : List Word} (h : opOf (header i) = op) :
    Effect i s (respond s (rsp statusOk op :: ws)) :=
  ⟨rfl, rfl, rfl, rfl, rfl, ⟨ws, by rw [h]; rfl⟩, .inl rfl⟩

/-- A writing command's effect: it writes its destination and responds with the header alone. -/
theorem effect_setSlot {i : Instr} {s : State} {d : SlotRef} {v : Slot} {op : Byte} (h : opOf (header i) = op)
    (hd : destination i = some d) : Effect i s (respondNone (setSlot s d v) op) :=
  ⟨rfl, rfl, rfl, rfl, rfl, ⟨[], by rw [h]; rfl⟩, .inr ⟨d, v, hd, rfl⟩⟩

/-- exec answers a next state, always (R85: step is total). -/
theorem exec_total (i : Instr) (s : State) : ∃ t, exec i s = .next t := by
  cases i <;> exact ⟨_, rfl⟩

/-- Every command but SYS.STATUS is a list of checks and an effect. -/
theorem exec_eq_perform {i : Instr} (s : State) (hi : i ≠ .sysStatus) :
    ∃ checks done, exec i s = perform i s checks done ∧ Effect i s done := by
  cases i with
  | sysStatus => exact absurd rfl hi
  | pkSetBit a v idx =>
    refine ⟨_, _, rfl, ?_⟩
    split
    · exact effect_setSlot (by rw [header, opOf_headerWord]) rfl
    · exact effect_respond (by rw [header, opOf_headerWord])
  | flSetBit a v idx =>
    refine ⟨_, _, rfl, ?_⟩
    split
    · exact effect_setSlot (by rw [header, opOf_headerWord]) rfl
    · exact effect_respond (by rw [header, opOf_headerWord])
  | _ =>
    refine ⟨_, _, rfl, ?_⟩
    first
      | exact effect_setSlot (by rw [header, opOf_headerWord]) rfl
      | exact effect_respond (by rw [header, opOf_headerWord])

/-- The ways a command other than SYS.STATUS ends: HALTED, a fault, or its effect. -/
theorem exec_cases {i : Instr} {s t : State} (hi : i ≠ .sysStatus) (h : exec i s = .next t) :
    (s.fault = true ∧ t = answerHalted s (header i)) ∨
    (s.fault = false ∧ ∃ c, t = takeFault s c (header i)) ∨
    (s.fault = false ∧ Effect i s t) := by
  obtain ⟨checks, done, hp, he⟩ := exec_eq_perform s hi
  rw [hp] at h
  rcases perform_cases h with h | ⟨hf, c, -, rfl⟩ | ⟨hf, -, rfl⟩
  · exact .inl h
  · exact .inr (.inl ⟨hf, c, rfl⟩)
  · exact .inr (.inr ⟨hf, he⟩)

/-- SYS.STATUS has its effect, halted or not (R259). -/
theorem exec_sysStatus (s : State) : exec .sysStatus s = .next (respondStatus s 0x01) := rfl

theorem effect_sysStatus (s : State) : Effect .sysStatus s (respondStatus s 0x01) :=
  effect_respond (by rw [header, opOf_headerWord])

/-- A step on a pending command is exec of what it decodes to, or the fault of its decoding (R85). -/
theorem step_command {s : State} {cmd : List Word} {rest : List PortEvent} (h : s.inbox = .command cmd :: rest) :
    step s = match decode cmd with
      | .error c => .next (rejectCommand { s with inbox := rest } cmd c)
      | .ok i => exec i { s with inbox := rest } := by
  have : takeEvent s = { s with inbox := rest } := by simp [takeEvent, h]
  rw [step, h]
  cases hd : decode cmd <;> simp only [this, hd]

theorem step_reset {s : State} {rest : List PortEvent} (h : s.inbox = .reset :: rest) :
    step s = .next (resetEvent { s with inbox := rest }) := by
  have : takeEvent s = { s with inbox := rest } := by simp [takeEvent, h]
  rw [step, h]
  simp only [this]

theorem step_idle {s : State} (h : s.inbox = []) : step s = .next s := by
  rw [step, h]

end Sys2Proof.Laws
end

