-- ==== Sys2Proof/Laws/Values.lean ====
section
/-! SUPPORT. The value functions against the logical bit and byte of a word store: bytes of words, the bit a mask addresses, population counts, trimming and the enumeration loop (spec 20_memory.md rule R52, 40_wordstore.md rules R101 to R107, 43_full_access.md rule R177, 45_full_enumeration.md rule R230). -/

namespace Sys2Proof.Laws

open Sys2Proof Sys2Proof.Machine Sys2Proof.Safety

/-! ### Bytes of words -/

@[simp] theorem bytesOfWord_length (w : Word) : (bytesOfWord w).length = 8 := by simp [bytesOfWord]

@[simp] theorem bytesOfWords_length (ws : List Word) : (bytesOfWords ws).length = 8 * ws.length := by
  induction ws with
  | nil => rfl
  | cons w ws ih =>
    rw [bytesOfWords, List.flatMap_cons, List.length_append, bytesOfWord_length, List.length_cons]
    unfold bytesOfWords at ih
    omega

theorem bytesOfWord_getD (w : Word) (j : Nat) (h : j < 8) : (bytesOfWord w).getD j 0 = w.extractLsb' (8 * j) 8 := by
  simp [bytesOfWord, h]

/-- Byte `j` of the untrimmed sequence is byte `j` of the words (R52). -/
theorem bytesOfWords_getD (ws : List Word) (j : Nat) : (bytesOfWords ws).getD j 0 = byteOf ws j := by
  induction ws generalizing j with
  | nil => simp [bytesOfWords, byteOf]
  | cons w ws ih =>
    rw [bytesOfWords, List.flatMap_cons]
    rcases Nat.lt_or_ge j 8 with h | h
    · rw [List.getD_append _ _ _ _ (by simpa using h), bytesOfWord_getD _ _ h, byteOf, Nat.div_eq_of_lt h,
        Nat.mod_eq_of_lt h]
      rfl
    · rw [List.getD_append_right _ _ _ _ (by simpa using h), bytesOfWord_length]
      have h1 := ih (j - 8)
      unfold bytesOfWords at h1
      have h2 : j / 8 = (j - 8) / 8 + 1 := by omega
      have h3 : j % 8 = (j - 8) % 8 := by omega
      rw [h1, byteOf, byteOf, h2, h3, List.getD_cons_succ]

/-- The bytes of the word made of at most eight bytes are those bytes. -/
theorem wordOfBytes_byte (bs : List Byte) (j : Nat) (hj : j < 8) :
    (wordOfBytes bs).extractLsb' (8 * j) 8 = bs.getD j 0 := by
  induction bs generalizing j with
  | nil => simp [wordOfBytes]
  | cons b bs ih =>
    apply BitVec.eq_of_getLsbD_eq
    intro k hk
    cases j with
    | zero =>
      simp only [wordOfBytes, BitVec.getLsbD_extractLsb', BitVec.getLsbD_or, BitVec.getLsbD_setWidth,
        BitVec.getLsbD_shiftLeft, List.getD_cons_zero]
      simp [hk]
      omega
    | succ j =>
      rw [List.getD_cons_succ, ← ih j (by omega)]
      simp only [wordOfBytes, BitVec.getLsbD_extractLsb', BitVec.getLsbD_or, BitVec.getLsbD_setWidth,
        BitVec.getLsbD_shiftLeft]
      have h1 : b.getLsbD (8 * (j + 1) + k) = false := BitVec.getLsbD_of_ge _ _ (by omega)
      have h2 : 8 * (j + 1) + k - 8 = 8 * j + k := by omega
      have h3 : 8 * (j + 1) + k < 64 := by omega
      have h4 : ¬ 8 * (j + 1) + k < 8 := by omega
      simp [h1, h2, h3, h4]

theorem ceilDiv8_eq (n : Nat) : ceilDiv8 n = (n + 7) / 8 := by
  unfold ceilDiv8; split <;> omega

@[simp] theorem packBytes_length (bs : List Byte) : (packBytes bs).length = ceilDiv8 bs.length := by
  simp [packBytes]

/-- Word `q` of a packed byte sequence holds its bytes `8q` to `8q+7`. -/
theorem packBytes_getD (bs : List Byte) (q : Nat) :
    (packBytes bs).getD q 0 = wordOfBytes ((bs.drop (8 * q)).take 8) := by
  rcases Nat.lt_or_ge q (ceilDiv8 bs.length) with h | h
  · simp [packBytes, h]
  · have h' : bs.length ≤ 8 * q := by rw [ceilDiv8_eq] at h; omega
    have e : (bs.drop (8 * q)).take 8 = [] := by simp [List.drop_eq_nil_of_le h']
    rw [e, List.getD_eq_default _ _ (by simpa using h), wordOfBytes]

/-- A word is its eight bytes. -/
theorem word_ext_bytes {v w : Word} (h : ∀ j < 8, v.extractLsb' (8 * j) 8 = w.extractLsb' (8 * j) 8) : v = w := by
  apply BitVec.eq_of_getLsbD_eq
  intro k hk
  have h1 := congrArg (fun x : BitVec 8 => x.getLsbD (k % 8)) (h (k / 8) (by omega))
  have h2 : 8 * (k / 8) + k % 8 = k := by omega
  have h3 : k % 8 < 8 := by omega
  simpa [BitVec.getLsbD_extractLsb', h2, h3] using h1

/-- Two word lists of one length with the same bytes are equal. -/
theorem words_ext_bytes {vs ws : List Word} (hl : vs.length = ws.length) (h : ∀ j, byteOf vs j = byteOf ws j) :
    vs = ws := by
  apply List.ext_getElem hl
  intro n h1 h2
  apply word_ext_bytes
  intro j hj
  have := h (8 * n + j)
  have e1 : (8 * n + j) / 8 = n := by omega
  have e2 : (8 * n + j) % 8 = j := by omega
  simpa [byteOf, e1, e2, h1, h2] using this

/-! ### Bits of words -/

theorem maskOf_getLsbD (idx : Word) (k : Nat) : (maskOf idx).getLsbD k = decide (k = idx.toNat % 64) := by
  have h : idx.toNat % 64 < 64 := Nat.mod_lt _ (by decide)
  rw [maskOf, BitVec.getLsbD_ofNat, Nat.testBit_two_pow]
  by_cases e : idx.toNat % 64 = k
  · subst e; simp [h]
  · simp [e, Ne.symm e]

/-- Masking reads the addressed bit (R102). -/
theorem and_maskOf_ne_zero (w idx : Word) : ((w &&& maskOf idx) != 0) = w.getLsbD (idx.toNat % 64) := by
  have h : idx.toNat % 64 < 64 := Nat.mod_lt _ (by decide)
  cases hb : w.getLsbD (idx.toNat % 64)
  · have : w &&& maskOf idx = 0 := by
      apply BitVec.eq_of_getLsbD_eq
      intro k hk
      rw [BitVec.getLsbD_and, maskOf_getLsbD]
      by_cases e : k = idx.toNat % 64 <;> simp [e, hb]
    simp [this]
  · have : w &&& maskOf idx ≠ 0 := by
      intro e
      have := congrArg (fun x : Word => x.getLsbD (idx.toNat % 64)) e
      simp [BitVec.getLsbD_and, maskOf_getLsbD, hb] at this
    simpa using this

/-- `getbit` reads the logical bit (R102). -/
theorem getBit_eq_bitOf (ws : List Word) (idx : Word) : getBit ws idx = bitOf ws idx.toNat := by
  rw [getBit, bitOf, wordIndex, and_maskOf_ne_zero]

/-- The word `setbit` writes back differs in the addressed bit alone (R103). -/
theorem setBitWord_getLsbD (w idx : Word) (v : Bool) (k : Nat) (hk : k < 64) :
    (setBitWord w idx v).getLsbD k = if k = idx.toNat % 64 then v else w.getLsbD k := by
  have hm := maskOf_getLsbD idx k
  cases v <;> by_cases e : k = idx.toNat % 64 <;> simp only [e, decide_true, decide_false] at hm <;>
    simp only [setBitWord, BitVec.getLsbD_or, BitVec.getLsbD_and, BitVec.getLsbD_not, if_true, if_false, e, hm, hk,
      Bool.false_eq_true, Bool.or_true, Bool.or_false, Bool.not_false, Bool.not_true, Bool.and_true, Bool.and_false,
      decide_true]

@[simp] theorem setBit_length (ws : List Word) (idx : Word) (v : Bool) : (setBit ws idx v).length = ws.length := by
  simp [setBit]

/-- A bit of the store after `setbit`, in range or not. -/
theorem setBit_bitOf (ws : List Word) (idx : Word) (v : Bool) (p : Nat) :
    bitOf (setBit ws idx v) p =
      if p = idx.toNat ∧ idx.toNat < 64 * ws.length then v else bitOf ws p := by
  have hp : p % 64 < 64 := Nat.mod_lt _ (by decide)
  unfold bitOf setBit wordIndex
  by_cases hr : idx.toNat / 64 < ws.length
  · by_cases e : p / 64 = idx.toNat / 64
    · rw [e]
      have : (ws.set (idx.toNat / 64) (setBitWord (ws.getD (idx.toNat / 64) 0) idx v)).getD (idx.toNat / 64) 0 =
          setBitWord (ws.getD (idx.toNat / 64) 0) idx v := by
        simp [hr]
      rw [this, setBitWord_getLsbD _ _ _ _ hp]
      by_cases e2 : p % 64 = idx.toNat % 64
      · rw [if_pos e2, if_pos ⟨by omega, by omega⟩]
      · rw [if_neg e2, if_neg (by omega)]
    · have : (ws.set (idx.toNat / 64) (setBitWord (ws.getD (idx.toNat / 64) 0) idx v)).getD (p / 64) 0 =
          ws.getD (p / 64) 0 := by
        simp [Ne.symm e]
      rw [this, if_neg (by rintro ⟨rfl, -⟩; exact e rfl)]
  · rw [if_neg (by omega)]
    have : ws.set (idx.toNat / 64) (setBitWord (ws.getD (idx.toNat / 64) 0) idx v) = ws :=
      List.set_eq_of_length_le (by omega)
    rw [this]

/-! ### Set positions -/

/-- The set positions of a word, ascending. -/
def setPositions (w : Word) : List Nat := (List.range 64).filter fun k => w.getLsbD k

/-- The set positions of a word store, ascending. -/
def setIndices (ws : List Word) : List Nat := (List.range (64 * ws.length)).filter fun p => bitOf ws p

theorem bitOf_cons_lt (w : Word) (ws : List Word) (p : Nat) (h : p < 64) : bitOf (w :: ws) p = w.getLsbD p := by
  simp [bitOf, Nat.div_eq_of_lt h, Nat.mod_eq_of_lt h]

theorem bitOf_cons_add (w : Word) (ws : List Word) (p : Nat) : bitOf (w :: ws) (64 + p) = bitOf ws p := by
  have h1 : (64 + p) / 64 = p / 64 + 1 := by omega
  have h2 : (64 + p) % 64 = p % 64 := by omega
  rw [bitOf, bitOf, h1, h2, List.getD_cons_succ]

/-- The set positions of a store: those of its first word, then those of the rest, 64 higher. -/
theorem setIndices_cons (w : Word) (ws : List Word) :
    setIndices (w :: ws) = setPositions w ++ (setIndices ws).map (64 + ·) := by
  unfold setIndices setPositions
  have : 64 * (w :: ws).length = 64 + 64 * ws.length := by rw [List.length_cons]; omega
  rw [this, List.range_add, List.filter_append, List.filter_map]
  have h1 : (List.range 64).filter (fun p => bitOf (w :: ws) p) = (List.range 64).filter fun p => w.getLsbD p := by
    apply List.filter_congr
    intro p hp
    exact bitOf_cons_lt w ws p (by simpa using hp)
  have h2 : ((fun p => bitOf (w :: ws) p) ∘ fun x => 64 + x) = fun p => bitOf ws p :=
    funext fun p => bitOf_cons_add w ws p
  rw [h1, h2]

theorem popcount_eq_length (w : Word) : popcount w = (setPositions w).length := by
  rw [popcount, setPositions, List.countP_eq_length_filter]

/-- The population count of a store is the number of its set positions (R104). -/
theorem popcountWords_eq_length (ws : List Word) : popcountWords ws = (setIndices ws).length := by
  induction ws with
  | nil => rfl
  | cons w ws ih =>
    rw [setIndices_cons, List.length_append, List.length_map, ← ih, ← popcount_eq_length]
    simp [popcountWords]

theorem setPositions_ne_nil {w : Word} (h : w ≠ 0) : ∃ k, k < 64 ∧ w.getLsbD k = true := by
  by_contra hc
  push Not at hc
  apply h
  apply BitVec.eq_of_getLsbD_eq
  intro k hk
  simpa using hc k hk

/-- `ctz` of a nonzero word is its least set position (R106). -/
theorem ctz_spec {w : Word} (h : w ≠ 0) :
    ctz w < 64 ∧ w.getLsbD (ctz w) = true ∧ ∀ k, k < ctz w → w.getLsbD k = false := by
  obtain ⟨k0, hk0, hb0⟩ := setPositions_ne_nil h
  unfold ctz
  cases hf : (List.range 64).find? fun k => w.getLsbD k with
  | none =>
    have := List.find?_eq_none.1 hf k0 (by simpa using hk0)
    exact absurd hb0 this
  | some c =>
    have h1 := List.find?_some hf
    have h2 := List.mem_of_find?_eq_some hf
    refine ⟨by simpa using h2, h1, ?_⟩
    intro k hk
    rw [List.find?_range_eq_some] at hf
    simpa using hf.2.2 k hk

/-- A least set position is `ctz`. -/
theorem ctz_eq {w : Word} {c : Nat} (hc : w.getLsbD c = true) (hl : ∀ k, k < c → w.getLsbD k = false) : ctz w = c := by
  have h0 : w ≠ 0 := by rintro rfl; simp at hc
  obtain ⟨-, h1, h2⟩ := ctz_spec h0
  rcases Nat.lt_trichotomy (ctz w) c with h | h | h
  · simp [hl _ h] at h1
  · exact h
  · simp [h2 _ h] at hc

/-- The isolated bit is bit `ctz` alone (R105). -/
theorem lowestBit_getLsbD {w : Word} (h : w ≠ 0) (k : Nat) : (lowestBit w).getLsbD k = decide (k = ctz w) := by
  obtain ⟨h1, h2, h3⟩ := ctz_spec h
  rw [lowestBit, BitVec.getLsbD_and, BitVec.getLsbD_neg]
  rcases Nat.lt_trichotomy k (ctz w) with hk | hk | hk
  · have : ¬ k = ctz w := by omega
    simp [h3 k hk, this]
  · subst hk
    have : ¬ ∃ j, j < ctz w ∧ w.getLsbD j = true := by
      rintro ⟨j, hj, hb⟩
      simp [h3 j hj] at hb
    simp [h2, this]
  · have he : ∃ j, j < k ∧ w.getLsbD j = true := ⟨_, hk, h2⟩
    have hn : ¬ k = ctz w := by omega
    by_cases hk64 : k < 64
    · simp [he, hk64, hn]
    · simp [BitVec.getLsbD_of_ge w k (by omega), hn]

theorem ctz_lowestBit {w : Word} (h : w ≠ 0) : ctz (lowestBit w) = ctz w := by
  apply ctz_eq
  · simp [lowestBit_getLsbD h]
  · intro k hk
    have : ¬ k = ctz w := by omega
    simp [lowestBit_getLsbD h, this]

/-- Clearing the lowest set bit takes the first set position away. -/
theorem setPositions_clear {w : Word} (h : w ≠ 0) :
    setPositions w = ctz w :: setPositions (w &&& ~~~(lowestBit w)) := by
  obtain ⟨h1, h2, h3⟩ := ctz_spec h
  have hs : List.range 64 = List.range (ctz w) ++ ctz w :: (List.range (63 - ctz w)).map (ctz w + 1 + ·) := by
    have e : 64 = ctz w + (1 + (63 - ctz w)) := by omega
    conv_lhs => rw [e]
    rw [List.range_add, List.range_add]
    simp [Function.comp_def, Nat.add_assoc]
  have hg : ∀ k, k < 64 → (w &&& ~~~(lowestBit w)).getLsbD k = (w.getLsbD k && !decide (k = ctz w)) := by
    intro k hk
    simp only [BitVec.getLsbD_and, BitVec.getLsbD_not, lowestBit_getLsbD h, hk, decide_true, Bool.true_and]
  have hlow : ∀ v : Word, (∀ k, k < ctz w → v.getLsbD k = false) →
      (List.range (ctz w)).filter (fun k => v.getLsbD k) = [] := by
    intro v hv
    apply List.filter_eq_nil_iff.2
    intro k hk
    simp [hv k (by simpa using hk)]
  have hc : (w &&& ~~~(lowestBit w)).getLsbD (ctz w) = false := by simp [hg _ h1]
  unfold setPositions
  rw [hs]
  simp only [List.filter_append, List.filter_cons, h2, if_true, hc]
  rw [hlow w h3, hlow _ (fun k hk => by rw [hg _ (by omega), h3 k hk]; rfl)]
  simp only [List.nil_append, Bool.false_eq_true, if_false]
  congr 1
  apply List.filter_congr
  intro p hp
  obtain ⟨q, hq, rfl⟩ := List.mem_map.1 hp
  have hq' : q < 63 - ctz w := by simpa using hq
  rw [hg _ (by omega)]
  have : ¬ ctz w + 1 + q = ctz w := by omega
  simp [this]

/-! ### The enumeration loop (R230) -/

/-- The first `cap` elements, or all of them. -/
def capTake (cap : Option Nat) (xs : List Word) : List Word :=
  match cap with
  | none => xs
  | some c => xs.take c

theorem capTake_append_capTake (cap : Option Nat) (xs ys : List Word) :
    capTake cap (capTake cap xs ++ ys) = capTake cap (xs ++ ys) := by
  cases cap with
  | none => rfl
  | some c =>
    simp only [capTake, List.take_append, List.take_take, Nat.min_self]
    congr 2
    rw [List.length_take]
    omega

theorem enumWord_eq (cap : Option Nat) (k fuel : Nat) (w : Word) (xs : List Word)
    (hf : (setPositions w).length ≤ fuel) (hx : capTake cap xs = xs) :
    enumWord cap k fuel w xs = capTake cap (xs ++ (setPositions w).map fun p => BitVec.ofNat 64 (64 * k + p)) := by
  induction fuel generalizing w xs with
  | zero =>
    have : setPositions w = [] := List.length_eq_zero_iff.1 (by omega)
    simp [enumWord, this, hx]
  | succ fuel ih =>
    rw [enumWord]
    split
    · next hw =>
      subst hw
      simp [setPositions, hx]
    · next hw =>
      split
      · next hc =>
        cases cap with
        | none => simp [atCapacity] at hc
        | some c =>
          have hc : c = xs.length := by simpa [atCapacity] using hc
          simp [capTake, hc]
      · next hc =>
        have hp := setPositions_clear hw
        rw [hp, List.length_cons] at hf
        simp only [ctz_lowestBit hw]
        rw [ih _ _ (by omega), hp]
        · simp
        · cases cap with
          | none => rfl
          | some c =>
            have hc : ¬ c = xs.length := by simpa [atCapacity] using hc
            simp only [capTake] at hx ⊢
            have : xs.length ≤ c := by
              have := congrArg List.length hx
              rw [List.length_take] at this
              omega
            rw [List.take_of_length_le]
            simp
            omega

theorem enumWords_eq (cap : Option Nat) (k : Nat) (ws xs : List Word) (hx : capTake cap xs = xs) :
    enumWords cap k ws xs = capTake cap (xs ++ (setIndices ws).map fun p => BitVec.ofNat 64 (64 * k + p)) := by
  induction ws generalizing k xs with
  | nil => simp [enumWords, setIndices, hx]
  | cons w ws ih =>
    have hlen : (setPositions w).length ≤ 64 := by
      unfold setPositions
      exact Nat.le_trans (List.length_filter_le _ _) (by simp)
    rw [enumWords, enumWord_eq cap k 64 w xs hlen hx, ih]
    · rw [capTake_append_capTake, setIndices_cons]
      congr 1
      simp only [List.append_assoc, List.map_append, List.map_map]
      congr 2
      apply List.map_congr_left
      intro p _
      simp only [Function.comp]
      congr 1
      omega
    · have := capTake_append_capTake cap (xs ++ (setPositions w).map fun p => BitVec.ofNat 64 (64 * k + p)) []
      simpa using this

/-- The loop of R230 gives the first `cap` of the set positions, ascending. -/
theorem enumerate_eq (cap : Option Nat) (ws : List Word) :
    enumerate cap ws = capTake cap ((setIndices ws).map (BitVec.ofNat 64)) := by
  have h : capTake cap [] = [] := by cases cap <;> simp [capTake]
  rw [enumerate, enumWords_eq cap 0 ws [] h]
  simp

/-! ### Trimming (R177) -/

theorem trimZeros_length_le (bs : List Byte) : (trimZeros bs).length ≤ bs.length := by
  induction bs with
  | nil => simp [trimZeros]
  | cons b bs ih =>
    rw [trimZeros]
    split
    · split <;> simp
    · next t ts h => rw [h] at ih; simpa using ih

/-- Only zero bytes are removed: with zeros past the end nothing changes. -/
theorem trimZeros_getD (bs : List Byte) (j : Nat) : (trimZeros bs).getD j 0 = bs.getD j 0 := by
  induction bs generalizing j with
  | nil => simp [trimZeros]
  | cons b bs ih =>
    rw [trimZeros]
    split
    · next h =>
      rw [h] at ih
      cases j with
      | zero => split <;> simp_all
      | succ j =>
        have := ih j
        rw [List.getD_cons_succ, ← this]
        split <;> simp
    · next t ts h =>
      rw [h] at ih
      cases j with
      | zero => simp
      | succ j => simpa using ih j

/-- The last byte kept is not zero. -/
theorem trimZeros_last (bs : List Byte) (h : (trimZeros bs).length ≠ 0) :
    (trimZeros bs).getD ((trimZeros bs).length - 1) 0 ≠ 0 := by
  induction bs with
  | nil => simp [trimZeros] at h
  | cons b bs ih =>
    rw [trimZeros] at h ⊢
    split at h
    · next hb =>
      split at h
      · simp at h
      · next hb0 =>
        rw [if_neg hb0]
        simpa using hb0
    · next t ts hb =>
      rw [hb] at ih
      have := ih (by simp)
      simpa using this

theorem trimZeros_append_zeros (bs : List Byte) :
    trimZeros bs ++ List.replicate (bs.length - (trimZeros bs).length) 0 = bs := by
  have hl := trimZeros_length_le bs
  apply List.ext_getElem
  · simp; omega
  · intro n h1 h2
    have := trimZeros_getD bs n
    rcases Nat.lt_or_ge n (trimZeros bs).length with h | h
    · rw [List.getElem_append_left h]
      simpa [h, h2] using this
    · rw [List.getElem_append_right h]
      simpa [h, h2] using this

end Sys2Proof.Laws
end

