-- ==== Sys2Proof/Laws/PerInstr.lean ====
section
/-! SUPPORT. Statements made for each instruction as syntax, one lemma a constructor: the encoding of a well-formed command passes checks 1 to 3 of spec 60_exceptions.md rule R252. -/

namespace Sys2Proof.Laws.EncodingAccepted

open Sys2Proof Sys2Proof.Machine

/-- The header of a well-formed command has a row and only zero unused fields, and its words are as many as the row
requires (R72, R76, R77). -/
def Statement (i : Instr) : Prop :=
  i.wf = true → ∃ r, rowOf (opOf (header i)) = some r ∧ headerLegal r (header i) = true ∧
    requiredLength r.format (operandWords i) = some (1 + (operandWords i).length)

/-- A command whose row is `r` satisfies the statement if its header is legal and its length is right. -/
theorem of_row {i : Instr} {r : Row} (h : rowOf (opOf (header i)) = some r) (hl : headerLegal r (header i) = true)
    (hn : i.wf = true → requiredLength r.format (operandWords i) = some (1 + (operandWords i).length)) : Statement i :=
  fun hw => ⟨r, h, hl, hn hw⟩

theorem sysStatus : Statement (.sysStatus) :=
  of_row (by rw [header, opOf_headerWord]; rfl) (by simp [headerLegal, header]) (fun _ => rfl)

theorem f2New (d : SlotRef) : Statement (.f2New d) :=
  of_row (by rw [header, opOf_headerWord]; rfl) (by simp [headerLegal, header]) (fun _ => rfl)

theorem f2From (d : SlotRef) (bytes : List Byte) : Statement (.f2From d bytes) :=
  of_row (by rw [header, opOf_headerWord]; rfl) (by simp [headerLegal, header]) (fun hw => by
    have : bytes.length < 2 ^ 64 := by simpa [Instr.wf] using hw
    simp only [operandWords, requiredLength, BitVec.toNat_ofNat, Nat.mod_eq_of_lt this, List.length_cons,
      packBytes_length]
    congr 1
    omega)

theorem f2BitAt (a : SlotRef) (idx : Word) : Statement (.f2BitAt a idx) :=
  of_row (by rw [header, opOf_headerWord]; rfl) (by simp [headerLegal, header]) (fun _ => rfl)

theorem f2SetBit (a : SlotRef) (v : Bool) (idx : Word) : Statement (.f2SetBit a v idx) :=
  of_row (by rw [header, opOf_headerWord]; rfl) (by simp [headerLegal, header]) (fun _ => rfl)

theorem f2Len (a : SlotRef) : Statement (.f2Len a) :=
  of_row (by rw [header, opOf_headerWord]; rfl) (by simp [headerLegal, header]) (fun _ => rfl)

theorem f2Count (a : SlotRef) : Statement (.f2Count a) :=
  of_row (by rw [header, opOf_headerWord]; rfl) (by simp [headerLegal, header]) (fun _ => rfl)

theorem f2Bytes (a : SlotRef) : Statement (.f2Bytes a) :=
  of_row (by rw [header, opOf_headerWord]; rfl) (by simp [headerLegal, header]) (fun _ => rfl)

theorem f2Shift (a : SlotRef) (amount : Word) : Statement (.f2Shift a amount) :=
  of_row (by rw [header, opOf_headerWord]; rfl) (by simp [headerLegal, header]) (fun _ => rfl)

theorem f2Indices (a : SlotRef) : Statement (.f2Indices a) :=
  of_row (by rw [header, opOf_headerWord]; rfl) (by simp [headerLegal, header]) (fun _ => rfl)

theorem pkNew (d : SlotRef) (n : Word) : Statement (.pkNew d n) :=
  of_row (by rw [header, opOf_headerWord]; rfl) (by simp [headerLegal, header]) (fun _ => rfl)

theorem pkFrom (d : SlotRef) (words : List Word) : Statement (.pkFrom d words) :=
  of_row (by rw [header, opOf_headerWord]; rfl) (by simp [headerLegal, header]) (fun hw => by
    have : words.length < 2 ^ 64 := by simpa [Instr.wf] using hw
    simp only [operandWords, requiredLength, BitVec.toNat_ofNat, Nat.mod_eq_of_lt this, List.length_cons]
    congr 1
    omega)

theorem pkBitAt (a : SlotRef) (idx : Word) : Statement (.pkBitAt a idx) :=
  of_row (by rw [header, opOf_headerWord]; rfl) (by simp [headerLegal, header]) (fun _ => rfl)

theorem pkSetBit (a : SlotRef) (v : Bool) (idx : Word) : Statement (.pkSetBit a v idx) :=
  of_row (by rw [header, opOf_headerWord]; rfl) (by simp [headerLegal, header]) (fun _ => rfl)

theorem pkLen (a : SlotRef) : Statement (.pkLen a) :=
  of_row (by rw [header, opOf_headerWord]; rfl) (by simp [headerLegal, header]) (fun _ => rfl)

theorem pkCount (a : SlotRef) : Statement (.pkCount a) :=
  of_row (by rw [header, opOf_headerWord]; rfl) (by simp [headerLegal, header]) (fun _ => rfl)

theorem flNew (d : SlotRef) (n : Word) : Statement (.flNew d n) :=
  of_row (by rw [header, opOf_headerWord]; rfl) (by simp [headerLegal, header]) (fun _ => rfl)

theorem flFrom (d : SlotRef) (words : List Word) : Statement (.flFrom d words) :=
  of_row (by rw [header, opOf_headerWord]; rfl) (by simp [headerLegal, header]) (fun hw => by
    have : words.length < 2 ^ 64 := by simpa [Instr.wf] using hw
    simp only [operandWords, requiredLength, BitVec.toNat_ofNat, Nat.mod_eq_of_lt this, List.length_cons]
    congr 1
    omega)

theorem flBitAt (a : SlotRef) (idx : Word) : Statement (.flBitAt a idx) :=
  of_row (by rw [header, opOf_headerWord]; rfl) (by simp [headerLegal, header]) (fun _ => rfl)

theorem flSetBit (a : SlotRef) (v : Bool) (idx : Word) : Statement (.flSetBit a v idx) :=
  of_row (by rw [header, opOf_headerWord]; rfl) (by simp [headerLegal, header]) (fun _ => rfl)

theorem flLen (a : SlotRef) : Statement (.flLen a) :=
  of_row (by rw [header, opOf_headerWord]; rfl) (by simp [headerLegal, header]) (fun _ => rfl)

theorem flCount (a : SlotRef) : Statement (.flCount a) :=
  of_row (by rw [header, opOf_headerWord]; rfl) (by simp [headerLegal, header]) (fun _ => rfl)

theorem flBytes (a : SlotRef) : Statement (.flBytes a) :=
  of_row (by rw [header, opOf_headerWord]; rfl) (by simp [headerLegal, header]) (fun _ => rfl)

theorem flContains (a b : SlotRef) : Statement (.flContains a b) :=
  of_row (by rw [header, opOf_headerWord]; rfl) (by simp [headerLegal, header]) (fun _ => rfl)

theorem flOverlaps (a b : SlotRef) : Statement (.flOverlaps a b) :=
  of_row (by rw [header, opOf_headerWord]; rfl) (by simp [headerLegal, header]) (fun _ => rfl)

theorem flClone (d a : SlotRef) : Statement (.flClone d a) :=
  of_row (by rw [header, opOf_headerWord]; rfl) (by simp [headerLegal, header]) (fun _ => rfl)

theorem flOr (d a b : SlotRef) : Statement (.flOr d a b) :=
  of_row (by rw [header, opOf_headerWord]; rfl) (by simp [headerLegal, header]) (fun _ => rfl)

theorem flAnd (d a b : SlotRef) : Statement (.flAnd d a b) :=
  of_row (by rw [header, opOf_headerWord]; rfl) (by simp [headerLegal, header]) (fun _ => rfl)

theorem flXor (d a b : SlotRef) : Statement (.flXor d a b) :=
  of_row (by rw [header, opOf_headerWord]; rfl) (by simp [headerLegal, header]) (fun _ => rfl)

theorem flNot (d a : SlotRef) : Statement (.flNot d a) :=
  of_row (by rw [header, opOf_headerWord]; rfl) (by simp [headerLegal, header]) (fun _ => rfl)

theorem flOrNa (d a b : SlotRef) : Statement (.flOrNa d a b) :=
  of_row (by rw [header, opOf_headerWord]; rfl) (by simp [headerLegal, header]) (fun _ => rfl)

theorem flAndNa (d a b : SlotRef) : Statement (.flAndNa d a b) :=
  of_row (by rw [header, opOf_headerWord]; rfl) (by simp [headerLegal, header]) (fun _ => rfl)

theorem flXorNa (d a b : SlotRef) : Statement (.flXorNa d a b) :=
  of_row (by rw [header, opOf_headerWord]; rfl) (by simp [headerLegal, header]) (fun _ => rfl)

theorem flNotNa (d a : SlotRef) : Statement (.flNotNa d a) :=
  of_row (by rw [header, opOf_headerWord]; rfl) (by simp [headerLegal, header]) (fun _ => rfl)

theorem flIndices (a : SlotRef) : Statement (.flIndices a) :=
  of_row (by rw [header, opOf_headerWord]; rfl) (by simp [headerLegal, header]) (fun _ => rfl)

theorem flIndicesNa (a : SlotRef) (cap : Word) : Statement (.flIndicesNa a cap) :=
  of_row (by rw [header, opOf_headerWord]; rfl) (by simp [headerLegal, header]) (fun _ => rfl)

end Sys2Proof.Laws.EncodingAccepted
end

