-- ==== Sys2Proof/Tests/Slice0.lean ====
section
/-! SUPPORT. The model's own tests: ill-formed commands, the decoding of every opcode, one step or two of every instruction, and a witness for the hypotheses of every statement. The expected results are those of spec 95_test_vectors.md (the row is named at each test) or are written out from the rule named. -/

namespace Sys2Proof.Tests

open Sys2Proof Sys2Proof.Machine Sys2Proof.Safety

/-! ### Well-formedness -/

theorem test_wf_payload : (Instr.f2From 0 [0xFF]).wf = true ∧ (Instr.pkFrom 1 []).wf = true ∧ (Instr.flFrom 255 [5, 0]).wf = true ∧
    (Instr.flOr 255 255 255).wf = true := by decide

/-- A payload whose count does not fit the count word has no encoding (R73, R77). -/
theorem test_illFormed_f2From : (Instr.f2From 0 (List.replicate (2 ^ 64) 0)).wf = false := by
  simp only [Instr.wf, List.length_replicate, Nat.lt_irrefl, decide_false]

theorem test_illFormed_pkFrom : (Instr.pkFrom 0 (List.replicate (2 ^ 64) 0)).wf = false := by
  simp only [Instr.wf, List.length_replicate, Nat.lt_irrefl, decide_false]

theorem test_illFormed_flFrom : (Instr.flFrom 0 (List.replicate (2 ^ 64) 0)).wf = false := by
  simp only [Instr.wf, List.length_replicate, Nat.lt_irrefl, decide_false]

/-! ### Decoding

Words written out from R71 and R76: bits 7..0 OP, 15..8 D, 23..16 A, 31..24 B, bit 32 V. -/

theorem test_decode_sysStatus : decode [0x0000000000000001] = .ok .sysStatus := by decide
theorem test_decode_f2New : decode [0x0000000000000310] = .ok (.f2New 3) := by decide
theorem test_decode_f2From : decode [0x0000000000000011, 2, 0xFF07] = .ok (.f2From 0 [0x07, 0xFF]) := by decide
theorem test_decode_f2BitAt : decode [0x0000000000050012, 1] = .ok (.f2BitAt 5 1) := by decide
theorem test_decode_f2SetBit : decode [0x0000000100050013, 1] = .ok (.f2SetBit 5 true 1) := by decide
theorem test_decode_f2Len : decode [0x0000000000050014] = .ok (.f2Len 5) := by decide
theorem test_decode_f2Count : decode [0x0000000000050015] = .ok (.f2Count 5) := by decide
theorem test_decode_f2Bytes : decode [0x0000000000050016] = .ok (.f2Bytes 5) := by decide
theorem test_decode_f2Shift : decode [0x0000000000050017, 0xFFFFFFFFFFFFFFFF] = .ok (.f2Shift 5 (-1)) := by decide
theorem test_decode_f2Indices : decode [0x0000000000050018] = .ok (.f2Indices 5) := by decide
theorem test_decode_pkNew : decode [0x0000000000000320, 70] = .ok (.pkNew 3 70) := by decide
theorem test_decode_pkFrom : decode [0x0000000000000321, 2, 9, 8] = .ok (.pkFrom 3 [9, 8]) := by decide
theorem test_decode_pkBitAt : decode [0x0000000000050022, 69] = .ok (.pkBitAt 5 69) := by decide
theorem test_decode_pkSetBit : decode [0x0000000000050023, 69] = .ok (.pkSetBit 5 false 69) := by decide
theorem test_decode_pkLen : decode [0x0000000000050024] = .ok (.pkLen 5) := by decide
theorem test_decode_pkCount : decode [0x0000000000050025] = .ok (.pkCount 5) := by decide
theorem test_decode_flNew : decode [0x0000000000000330, 128] = .ok (.flNew 3 128) := by decide
theorem test_decode_flFrom : decode [0x0000000000000331, 2, 5, 0] = .ok (.flFrom 3 [5, 0]) := by decide
theorem test_decode_flBitAt : decode [0x0000000000050032, 65] = .ok (.flBitAt 5 65) := by decide
theorem test_decode_flSetBit : decode [0x0000000100FF0033, 127] = .ok (.flSetBit 255 true 127) := by decide
theorem test_decode_flLen : decode [0x0000000000050034] = .ok (.flLen 5) := by decide
theorem test_decode_flCount : decode [0x0000000000050035] = .ok (.flCount 5) := by decide
theorem test_decode_flBytes : decode [0x0000000000050036] = .ok (.flBytes 5) := by decide
theorem test_decode_flContains : decode [0x0000000009050037] = .ok (.flContains 5 9) := by decide
theorem test_decode_flOverlaps : decode [0x0000000009050038] = .ok (.flOverlaps 5 9) := by decide
theorem test_decode_flClone : decode [0x0000000000050339] = .ok (.flClone 3 5) := by decide
theorem test_decode_flOr : decode [0x0000000009050340] = .ok (.flOr 3 5 9) := by decide
theorem test_decode_flAnd : decode [0x0000000009050341] = .ok (.flAnd 3 5 9) := by decide
theorem test_decode_flXor : decode [0x0000000009050342] = .ok (.flXor 3 5 9) := by decide
theorem test_decode_flNot : decode [0x0000000000050343] = .ok (.flNot 3 5) := by decide
theorem test_decode_flOrNa : decode [0x0000000009050348] = .ok (.flOrNa 3 5 9) := by decide
theorem test_decode_flAndNa : decode [0x0000000009050349] = .ok (.flAndNa 3 5 9) := by decide
theorem test_decode_flXorNa : decode [0x000000000905034A] = .ok (.flXorNa 3 5 9) := by decide
theorem test_decode_flNotNa : decode [0x000000000005034B] = .ok (.flNotNa 3 5) := by decide
theorem test_decode_flIndices : decode [0x0000000000050050] = .ok (.flIndices 5) := by decide
theorem test_decode_flIndicesNa : decode [0x0000000000050051, 2] = .ok (.flIndicesNa 5 2) := by decide

/-- The words of an encoded command, written out from R71, R73 and R75. -/
theorem test_encode_words : encode (.flOr 255 0 255) = [0x00000000FF00FF40] ∧
    encode (.f2From 1 [1, 2, 3, 4, 5, 6, 7, 8, 9]) = [0x0000000000000111, 9, 0x0807060504030201, 0x0000000000000009] ∧
    encode (.pkSetBit 2 true 69) = [0x0000000100020023, 69] := by decide

/-- Vectors X5, X1, X2, X3, X4, X6, X7, X8: commands the decoder refuses, by the fault's name (R252 checks 1 to 3). -/
theorem test_decode_refuses : decode [] = .error .badLength ∧ decode [0x00] = .error .illegalCommand ∧
    decode [0x0000000200000001] = .error .illegalCommand ∧ decode [0x0000000000000114] = .error .illegalCommand ∧
    decode [0x0000000100000014] = .error .illegalCommand ∧ decode [0x34, 0] = .error .badLength ∧
    decode [0x31, 2, 0] = .error .badLength ∧ decode [0x11, 9, 0] = .error .badLength ∧
    decode [0x31] = .error .badLength ∧ decode [0x12] = .error .badLength := by decide

/-- R72: the padding of an HPB payload is ignored, whatever it holds. -/
theorem test_decode_padding : decode [0x11, 1, 0xFFFFFFFFFFFFFF02] = .ok (.f2From 0 [0x02]) := by decide

/-- The opcode table's bits: 64 for a header, and the operand words beyond them zero. -/
theorem test_tableWord : decodeTableWord 64 0x0000000009050340 = some (.flOr 3 5 9) ∧
    decodeTableWord 64 0x0000000000000321 = some (.pkFrom 3 []) ∧
    decodeTableWord 128 0x00000000000000450000000100020023 = some (.pkSetBit 2 true 69) ∧
    decodeTableWord 64 0x0000000000000019 = none := by decide

/-! ### Steps -/

/-- A block of eight slots with the parameters of spec 95_test_vectors.md, `ss` in the first of them. -/
def block (ss : List Slot) : State := { State.reset with slots := ss ++ List.replicate (8 - ss.length) .empty }

/-- The command completes: the response and the slots it leaves, everything else as before. -/
def runs (s : State) (cmd response : List Word) (ss : List Slot) : Bool :=
  match step (offerEvent s (.command cmd)) with
  | .next t => decide (t = { s with slots := (block ss).slots, responses := [response] })
  | _ => false

/-- The command faults with this code: the record, the one-word response, everything else as before. -/
def faults (s : State) (cmd : List Word) (code : Byte) (response : Word) : Bool :=
  match step (offerEvent s (.command cmd)) with
  | .next t => decide (t = { s with fault := true, fcode := code, fhdr := cmd.headD 0, responses := [[response]] })
  | _ => false

/-- What withFetchWord places is what the next step runs. -/
theorem test_withFetchWord : step ((block []).withFetchWord 64 0x0000000000000310) =
    exec (.f2New 3) (block []) := by rfl

-- X15
theorem test_sysStatus : runs (block []) [0x01] [0x0100, 0, 0] [] = true := by decide
-- F1, over a slot of another kind (D31)
theorem test_f2New_overwrites : runs (block [.full [9]]) [0x10] [0x1000] [.fixed2 [0x00]] = true := by decide
-- F3
theorem test_f2From : runs (block []) [0x11, 2, 0xFF07] [0x1100] [.fixed2 [0x07, 0xFF]] = true := by decide
-- F4
theorem test_f2From_capacity : faults (block []) [0x11, 5, 0x0000000504030201] 0x07 0x1107 = true := by decide
-- F5
theorem test_f2BitAt : runs (block [.fixed2 [0x02]]) [0x12, 1] [0x1200, 1] [.fixed2 [0x02]] = true := by decide
-- F7
theorem test_f2BitAt_outOfRange : runs (block [.fixed2 [0x06]]) [0x12, 2] [0x1200, 0] [.fixed2 [0x06]] = true := by decide
-- F11
theorem test_f2SetBit_clears : runs (block [.fixed2 [0xFF]]) [0x13, 0] [0x1300] [.fixed2 [0xFE]] = true := by decide
-- F13
theorem test_f2SetBit_malformed : runs (block [.fixed2 [0x00, 0x00]]) [0x0000000100000013, 0] [0x1300] [.fixed2 [0x00, 0x00]] = true := by decide
-- F14
theorem test_f2Len_empty : runs (block [.fixed2 []]) [0x14] [0x1400, 2] [.fixed2 []] = true := by decide
-- F17
theorem test_f2Count : runs (block [.fixed2 [0x01, 0xFF]]) [0x15] [0x1500, 1] [.fixed2 [0x01, 0xFF]] = true := by decide
-- F21
theorem test_f2Bytes : runs (block [.fixed2 [0x07, 0xFF]]) [0x16] [0x1600, 1, 3] [.fixed2 [0x07, 0xFF]] = true := by decide
-- F27
theorem test_f2Shift_right : runs (block [.fixed2 [0x0C]]) [0x17, 0xFFFFFFFFFFFFFFFE] [0x1700] [.fixed2 [0x03]] = true := by decide
-- F31: F2_SHIFT_TARGET = LAST
theorem test_f2Shift_last : runs { block [.fixed2 [0x01, 0x01]] with params := ⟨4, 4, .last⟩ } [0x17, 1] [0x1700]
    [.fixed2 [0x01, 0x02]] = true := by decide
-- F33
theorem test_f2Indices : runs (block [.fixed2 [0x06]]) [0x18] [0x1800, 1, 1] [.fixed2 [0x06]] = true := by decide
-- P1
theorem test_pkNew : runs (block []) [0x0120, 70] [0x2000] [.empty, .packed 70 [0, 0]] = true := by decide
-- W8
theorem test_pkNew_noWrap : faults (block []) [0x20, 0xFFFFFFFFFFFFFFC1] 0x07 0x2007 = true := by decide
-- P2
theorem test_pkFrom : runs (block []) [0x0121, 2, 0x8000000000000000, 1] [0x2100] [.empty, .packed 128 [0x8000000000000000, 1]] = true := by decide
-- P5
theorem test_pkBitAt : runs (block [.empty, .packed 70 [0, 0x20]]) [0x010022, 69] [0x2200, 1] [.empty, .packed 70 [0, 0x20]] = true := by decide
-- P9
theorem test_pkSetBit : runs (block [.empty, .packed 70 [0, 0]]) [0x0000000100010023, 64] [0x2300] [.empty, .packed 70 [0, 1]] = true := by decide
-- P8
theorem test_pkSetBit_slack : runs (block [.empty, .packed 70 [0, 0]]) [0x0000000100010023, 70] [0x2300] [.empty, .packed 70 [0, 0]] = true := by decide
-- P11
theorem test_pkLen : runs (block [.empty, .packed 70 [0, 0]]) [0x010024] [0x2400, 70] [.empty, .packed 70 [0, 0]] = true := by decide
-- P14
theorem test_pkCount : runs (block [.empty, .packed 70 [1, 0x20]]) [0x010025] [0x2500, 2] [.empty, .packed 70 [1, 0x20]] = true := by decide
-- A1
theorem test_flNew : runs (block []) [0x30, 128] [0x3000] [.full [0, 0]] = true := by decide
-- A5
theorem test_flNew_badOperandFirst : faults (block []) [0x30, 0xFFFFFFFFFFFFFFC1] 0x06 0x3006 = true := by decide
-- A6
theorem test_flFrom : runs (block []) [0x31, 2, 5, 0] [0x3100] [.full [5, 0]] = true := by decide
-- A7
theorem test_flBitAt : runs (block [.full [0, 2]]) [0x32, 65] [0x3200, 1] [.full [0, 2]] = true := by decide
-- A9
theorem test_flSetBit : runs (block [.full [0, 0]]) [0x0000000100000033, 127] [0x3300] [.full [0, 0x8000000000000000]] = true := by decide
-- A10
theorem test_flSetBit_outOfRange : runs (block [.full [0, 0]]) [0x0000000100000033, 128] [0x3300] [.full [0, 0]] = true := by decide
-- A11
theorem test_flLen : runs (block [.full [0, 0, 0]]) [0x34] [0x3400, 192] [.full [0, 0, 0]] = true := by decide
-- A12
theorem test_flCount : runs (block [.full [0xFFFFFFFFFFFFFFFF, 0x8000000000000001]]) [0x35] [0x3500, 0x42] [.full [0xFFFFFFFFFFFFFFFF, 0x8000000000000001]] = true := by decide
-- A16
theorem test_flBytes : runs (block [.full [0, 0x100]]) [0x36] [0x3600, 10, 0, 0x100] [.full [0, 0x100]] = true := by decide
-- A19
theorem test_flContains : runs (block [.full [7], .full [5]]) [0x01000037] [0x3700, 1] [.full [7], .full [5]] = true := by decide
-- A20
theorem test_flContains_not : runs (block [.full [7], .full [5]]) [0x010037] [0x3700, 0] [.full [7], .full [5]] = true := by decide
-- A23
theorem test_flOverlaps : runs (block [.full [1, 0], .full [0, 1]]) [0x01000038] [0x3800, 0] [.full [1, 0], .full [0, 1]] = true := by decide
-- A25
theorem test_flOverlaps_lengths : faults (block [.full [], .full [1]]) [0x01000038] 0x08 0x3808 = true := by decide
-- A29
theorem test_flClone : runs (block [.full [9], .packed 5 [0]]) [0x0139] [0x3900] [.full [9], .full [9]] = true := by decide
-- G17
theorem test_flOr : runs (block [.full [6], .full [3], .fixed2 [0x00]]) [0x01000240] [0x4000] [.full [6], .full [3], .full [7]] = true := by decide
-- G2
theorem test_flAnd : runs (block [.full [6], .full [3]]) [0x01000241] [0x4100] [.full [6], .full [3], .full [2]] = true := by decide
-- G14
theorem test_flXor_inPlace : runs (block [.full [6], .full [3]]) [0x01000042] [0x4200] [.full [5], .full [3]] = true := by decide
-- G4
theorem test_flNot : runs (block [.full [6], .full [3]]) [0x0243] [0x4300] [.full [6], .full [3], .full [0xFFFFFFFFFFFFFFF9]] = true := by decide
-- G6
theorem test_flOrNa : runs (block [.full [6], .full [3], .full [0xFFFF]]) [0x01000248] [0x4800] [.full [6], .full [3], .full [7]] = true := by decide
-- G12
theorem test_flOrNa_empty : faults (block [.full [6], .full [3]]) [0x01000348] 0x04 0x4804 = true := by decide
-- G7
theorem test_flAndNa : runs (block [.full [6], .full [3], .full [0]]) [0x01000249] [0x4900] [.full [6], .full [3], .full [2]] = true := by decide
-- G18
theorem test_flAndNa_kind : faults (block [.full [6], .full [3], .packed 64 [0]]) [0x01000249] 0x05 0x4905 = true := by decide
-- G8
theorem test_flXorNa : runs (block [.full [6], .full [3], .full [0]]) [0x0100024A] [0x4A00] [.full [6], .full [3], .full [5]] = true := by decide
-- G16
theorem test_flNotNa_inPlace : runs (block [.full [6], .full [3]]) [0x4B] [0x4B00] [.full [0xFFFFFFFFFFFFFFF9], .full [3]] = true := by decide
-- G11
theorem test_flNotNa_length : faults (block [.full [6], .full [3], .full [0, 0]]) [0x024B] 0x08 0x4B08 = true := by decide
-- N3
theorem test_flIndices : runs (block [.full [0x8000000000000000, 0x8000000000000000]]) [0x50] [0x5000, 2, 63, 127] [.full [0x8000000000000000, 0x8000000000000000]] = true := by decide
-- N4
theorem test_flIndicesNa : runs (block [.full [0x8000000000000001, 5]]) [0x51, 2] [0x5100, 2, 0, 63] [.full [0x8000000000000001, 5]] = true := by decide
-- X12
theorem test_badSlot_beforeKind : faults (block [.fixed2 [0x00]]) [0x09000240] 0x03 0x4003 = true := by decide
-- X13
theorem test_emptySlot_beforeKind : faults (block [.fixed2 [0x00]]) [0x01000240] 0x04 0x4004 = true := by decide
-- X1
theorem test_illegalOpcode : faults (block []) [0x00] 0x01 0x0001 = true := by decide
-- X5
theorem test_emptyCommand : faults (block []) [] 0x02 0x0002 = true := by decide

/-- Halted as in step 3 of program Q4. -/
def halted : State := { block [.full [5]] with fault := true, fcode := 0x08, fhdr := 0x0000000002010440 }

-- Q4, steps 4 and 5
theorem test_halted : runs halted [0x35] [0x35FF] [.full [5]] = true := by decide
theorem test_halted_sysStatus : runs halted [0x01] [0x0100, 0x0801, 0x0000000002010440] [.full [5]] = true := by decide

-- R255: while halted even an ill-formed command gets HALTED, and the empty one echoes opcode 0
theorem test_halted_illFormed : runs halted [0x01, 0] [0x01FF] [.full [5]] = true ∧ runs halted [] [0x00FF] [.full [5]] = true := by
  decide

-- Q4, step 6 (R280)
theorem test_reset : step (offerEvent halted .reset) = .next State.reset := by rfl

/-! ### Witnesses: states and operands that meet the hypotheses of each statement -/

theorem witness_DecodeEncodeRoundTrip : (Instr.f2From 255 [1, 2, 3, 4, 5, 6, 7, 8, 9]).wf = true ∧ (Instr.pkFrom 0 []).wf = true ∧
    (Instr.flSetBit 255 true 0xFFFFFFFFFFFFFFFF).wf = true := by decide

theorem witness_EncodeDecodeGivesWords : decode [0x11, 1, 0xFFFFFFFFFFFFFF02] = .ok (.f2From 0 [0x02]) ∧
    decode [0x21, 1, 7] = .ok (.pkFrom 0 [7]) := by decide

/-- The ends of the ranges of R78. -/
theorem witness_IllegalOpcodesFault : (block []).fault = false ∧ illegalOp ((0x00 : Word).toNat % 256) = true ∧
    illegalOp ((0x02 : Word).toNat % 256) = true ∧ illegalOp ((0x0F : Word).toNat % 256) = true ∧
    illegalOp ((0x19 : Word).toNat % 256) = true ∧ illegalOp ((0x3A : Word).toNat % 256) = true ∧
    illegalOp ((0x4F : Word).toNat % 256) = true ∧ illegalOp ((0xFFFFFFFFFFFFFFFF : Word).toNat % 256) = true ∧
    illegalOp 0x01 = false ∧ illegalOp 0x18 = false ∧ illegalOp 0x51 = false := by decide

/-- RSV, then each of D, A, B and V where the opcode does not use it, with no other field set. -/
theorem witness_UnusedFieldsMustBeZero : (block []).fault = false ∧
    (∃ r, rowOf (opOf 0x0000000200000001) = some r ∧ (0x0000000200000001 : Word).toNat / 2 ^ 33 ≠ 0) ∧
    (∃ r, rowOf (opOf 0x0000000000000114) = some r ∧ Field.d ∉ r.fields ∧ (0x0000000000000114 : Word).toNat / 2 ^ 8 % 256 ≠ 0) ∧
    (∃ r, rowOf (opOf 0x0000000000010010) = some r ∧ Field.a ∉ r.fields ∧ (0x0000000000010010 : Word).toNat / 2 ^ 16 % 256 ≠ 0) ∧
    (∃ r, rowOf (opOf 0x0000000001000010) = some r ∧ Field.b ∉ r.fields ∧ (0x0000000001000010 : Word).toNat / 2 ^ 24 % 256 ≠ 0) ∧
    (∃ r, rowOf (opOf 0x0000000100000014) = some r ∧ Field.v ∉ r.fields ∧ (0x0000000100000014 : Word).toNat / 2 ^ 32 % 2 ≠ 0) :=
  ⟨rfl, ⟨_, rfl, by decide⟩, ⟨_, rfl, by decide, by decide⟩, ⟨_, rfl, by decide, by decide⟩, ⟨_, rfl, by decide, by decide⟩,
    ⟨_, rfl, by decide, by decide⟩⟩

/-- One legal header of each format; the counts are one short and one right. -/
theorem witness_WrongLengthFaults : (block []).fault = false ∧
    (∃ r, rowOf (opOf 0x34) = some r ∧ r.format = .h ∧ headerLegal r 0x34 = true) ∧
    (∃ r, rowOf (opOf 0x12) = some r ∧ r.format = .hi ∧ headerLegal r 0x12 = true) ∧
    (∃ r, rowOf (opOf 0x31) = some r ∧ r.format = .hpw ∧ headerLegal r 0x31 = true ∧
      ¬ ([2, 0] : List Word).length = 1 + (2 : Word).toNat ∧ ([2, 0, 0] : List Word).length = 1 + (2 : Word).toNat) ∧
    (∃ r, rowOf (opOf 0x11) = some r ∧ r.format = .hpb ∧ headerLegal r 0x11 = true ∧
      ¬ ([9, 0] : List Word).length = 1 + ((9 : Word).toNat + 7) / 8 ∧ ([9, 0, 0] : List Word).length = 1 + ((9 : Word).toNat + 7) / 8) :=
  ⟨rfl, ⟨_, rfl, rfl, by decide⟩, ⟨_, rfl, rfl, by decide⟩, ⟨_, rfl, rfl, by decide, by decide, by decide⟩,
    ⟨_, rfl, rfl, by decide, by decide, by decide⟩⟩

theorem witness_StepRunsDecodedCommand : (offerEvent (block []) (.command [0x10])).inbox = [.command [0x10]] ∧
    decode [0x10] = .ok (.f2New 0) := by decide

theorem witness_StepWaitsForHost : State.reset.inbox = [] := by decide

/-- A command for every fault code, and one that passes every check. -/
theorem witness_StepFollowsValidation : (block [.full [6], .full [3, 0], .fixed2 [0x00]]).fault = false ∧
    rawValidate (block []) [0x00] = some .illegalCommand ∧ rawValidate (block []) [] = some .badLength ∧
    rawValidate (block []) [0x080034] = some .badSlot ∧ rawValidate (block []) [0x34] = some .emptySlot ∧
    rawValidate (block [.fixed2 [0x00]]) [0x34] = some .kindMismatch ∧ rawValidate (block []) [0x30, 70] = some .badOperand ∧
    rawValidate (block []) [0x20, 257] = some .capacityExceeded ∧
    rawValidate (block [.full [6], .full [3, 0]]) [0x01000240] = some .lengthMismatch ∧
    rawValidate (block []) [0x20, 256] = none ∧ rawValidate (block [.full [6], .full [3]]) [0x01000240] = none := by decide

theorem witness_HaltedUntilReset : halted.fault = true ∧ ([0x01, 0] : List Word) ≠ [0x0000000000000001] ∧
    ([] : List Word) ≠ [0x0000000000000001] ∧ (offerEvent halted .reset).inbox = [.reset] ∧
    (offerEvent halted (.command [0x01])).inbox = [.command [0x0000000000000001]] := by decide

/-- The exact word, a field set, and a word too many, each pending; running and halted. -/
theorem witness_SysStatusReadsRecord : (0x0000000000000001 : Word).toNat % 256 = 1 ∧ (0x0000000000000101 : Word).toNat % 256 = 1 ∧
    (offerEvent (block []) (.command [0x01])).inbox = [.command [0x01]] ∧
    (offerEvent (block []) (.command [0x0101])).inbox = [.command [0x0101]] ∧
    (offerEvent halted (.command [0x01, 0])).inbox = [.command [0x01, 0]] := by decide

theorem witness_ResetEventClearsState : (offerEvent halted .reset).inbox = [.reset] := by decide

theorem witness_ResetValues : 7 < 8 ∧ (State.resetWith 8 ⟨4, 4, .first⟩).slots[7]? = some .empty := by decide

theorem witness_OneResponsePerCommand : (offerEvent halted (.command [])).inbox = [.command []] := by decide

theorem witness_FaultRecordSticky : halted.fault = true ∧ ([0x35] : List Word) ≠ [0x01] ∧ ∃ t, step (offerEvent halted (.command [0x35])) = .next t :=
  ⟨rfl, by decide, _, rfl⟩

theorem witness_FaultsArePrecise : (block []).fault = false ∧
    ∃ t, step (offerEvent (block []) (.command [0x080034])) = .next t ∧ t.fault = true :=
  ⟨rfl, _, rfl, rfl⟩

/-- A PACKED value with slack bits, well formed: 70 bits in two words. -/
theorem witness_SlotWf : SlotWf ⟨4, 4, .first⟩ (.packed 70 [0xFFFFFFFFFFFFFFFF, 0x3F]) := by
  refine ⟨by decide, by decide, fun q h1 h2 => ?_⟩
  have h : ∀ k, k < 64 → 6 ≤ k → (0x3F : Word).getLsbD k = false := by decide
  have h1 : 70 ≤ q := h1
  have h2 : q < 128 := h2
  have e : q / 64 = 1 := by omega
  simp only [bitOf, e]
  exact h (q % 64) (by omega) (by omega)

theorem witness_StepKeepsInvariant : Inv (offerEvent halted .reset) ∧ ∃ t, step (offerEvent halted .reset) = .next t := by
  refine ⟨⟨by decide, by decide, ?_, ?_⟩, _, rfl⟩
  · intro v hv
    have : v = .full [5] ∨ v = .empty := by simpa [halted, block, offerEvent] using hv
    rcases this with rfl | rfl
    · show 1 ≤ 4
      decide
    · trivial
  · show 1 ≤ 8 ∧ 8 ≤ 8
    decide

theorem witness_ResetHasInvariant : 1 ≤ 256 ∧ Params.legal ⟨0, 1, .last⟩ ∧ Params.legal ⟨2 ^ 58 - 1, 2 ^ 64 - 1, .first⟩ := by decide

theorem witness_StepKeepsParameters : ∃ t, step (offerEvent halted .reset) = .next t := ⟨_, rfl⟩

theorem witness_OnlyDestinationChanges : ∃ t, exec (.flOr 2 0 1) (block [.full [6], .full [3]]) = .next t ∧
    t.fault = (block [.full [6], .full [3]]).fault ∧ ∀ r, destination (.flOr 2 0 1) = some r → r.toNat ≠ 1 :=
  ⟨_, rfl, rfl, fun r h => by cases h; decide⟩

theorem witness_QueriesHaveNoSideEffects : destination (.flCount 0) = none ∧
    ∃ t, exec (.flCount 0) (block [.full [6]]) = .next t ∧ t.fault = (block [.full [6]]).fault :=
  ⟨rfl, _, rfl, rfl⟩

theorem witness_RepeatedCommandsAreIdempotent : idempotent (.flXorNa 2 0 1) = true ∧ idempotent (.f2Shift 0 0) = true ∧
    ∃ t u, exec (.flXorNa 2 0 1) (block [.full [6], .full [3], .full [0]]) = .next t ∧ t.fault = false ∧
      exec (.flXorNa 2 0 1) t = .next u :=
  ⟨rfl, rfl, _, _, rfl, rfl, rfl⟩

theorem witness_ResponsesHaveTheirShape : Inv State.reset ∧ State.reset.fault = false ∧
    ∃ t, exec (.pkNew 0 70) State.reset = .next t ∧ t.fault = false := by
  refine ⟨⟨by decide, by decide, fun v hv => ?_, ⟨rfl, rfl⟩⟩, rfl, _, rfl, rfl⟩
  have : v = .empty := by simpa [State.reset, State.resetWith, nslotVectors] using hv
  subst this
  trivial

theorem witness_F2NewResult : State.reset.fault = false ∧ (7 : SlotRef).toNat < State.reset.slots.length := by decide

/-- No bytes, and `MAXB` of them. -/
theorem witness_F2FromResult : State.reset.fault = false ∧ (7 : SlotRef).toNat < State.reset.slots.length ∧
    ([] : List Byte).length ≤ State.reset.params.maxB ∧ ([1, 2, 3, 4] : List Byte).length ≤ State.reset.params.maxB := by decide

/-- The FIXED2 storages the rules tell apart: none, one byte, more than one. -/
def fixed2Block : State := block [.fixed2 [], .fixed2 [0xFE], .fixed2 [0x01, 0xFF]]

theorem witness_F2BitAtResult : fixed2Block.fault = false ∧ fixed2Block.slots[(0 : SlotRef).toNat]? = some (.fixed2 []) ∧
    fixed2Block.slots[(1 : SlotRef).toNat]? = some (.fixed2 [0xFE]) ∧
    fixed2Block.slots[(2 : SlotRef).toNat]? = some (.fixed2 [0x01, 0xFF]) := by decide

/-- The last index in range, the first out of range, and the two malformed storages. -/
theorem witness_F2SetBitResult : fixed2Block.fault = false ∧ fixed2Block.slots[(1 : SlotRef).toNat]? = some (.fixed2 [0xFE]) ∧
    (1 : Word).toNat < 2 ∧ 2 ≤ (2 : Word).toNat ∧ ([] : List Byte).length ≠ 1 ∧ ([0x01, 0xFF] : List Byte).length ≠ 1 := by decide

theorem witness_F2LenCountBytesResults : fixed2Block.fault = false ∧
    fixed2Block.slots[(0 : SlotRef).toNat]? = some (.fixed2 []) ∧
    fixed2Block.slots[(2 : SlotRef).toNat]? = some (.fixed2 [0x01, 0xFF]) := by decide

theorem witness_F2ShiftResult : fixed2Block.fault = false ∧ fixed2Block.slots[(0 : SlotRef).toNat]? = some (.fixed2 []) ∧
    fixed2Block.slots[(2 : SlotRef).toNat]? = some (.fixed2 [0x01, 0xFF]) ∧
    max (-2) (min 2 (0x8000000000000000 : Word).toInt) = -2 ∧ max (-2) (min 2 (0x7FFFFFFFFFFFFFFF : Word).toInt) = 2 := by decide

theorem witness_F2IndicesResult : fixed2Block.fault = false ∧ fixed2Block.slots[(1 : SlotRef).toNat]? = some (.fixed2 [0xFE]) := by
  decide

theorem witness_Fixed2NeverFaultsOnContents : fixed2Block.fault = false ∧
    fixed2Block.slots[(0 : SlotRef).toNat]? = some (.fixed2 []) := by decide

/-- Word counts 0 and `MAXW`. -/
theorem witness_PkNewResult : State.reset.fault = false ∧ (7 : SlotRef).toNat < State.reset.slots.length ∧
    ((0 : Word).toNat + 63) / 64 ≤ State.reset.params.maxW ∧ ((256 : Word).toNat + 63) / 64 ≤ State.reset.params.maxW := by decide

theorem witness_PkFromResult : State.reset.fault = false ∧ (7 : SlotRef).toNat < State.reset.slots.length ∧
    ([] : List Word).length ≤ State.reset.params.maxW ∧ ([1, 2, 3, 4] : List Word).length ≤ State.reset.params.maxW := by decide

/-- A PACKED value with slack bits. -/
def packedBlock : State := block [.packed 70 [0xFFFFFFFFFFFFFFFF, 0x3F]]

theorem witness_PkBitAtResult : packedBlock.fault = false ∧
    packedBlock.slots[(0 : SlotRef).toNat]? = some (.packed 70 [0xFFFFFFFFFFFFFFFF, 0x3F]) := by decide

/-- The last index in range and the first out of range, which still has a word. -/
theorem witness_PkSetBitResult : packedBlock.fault = false ∧
    packedBlock.slots[(0 : SlotRef).toNat]? = some (.packed 70 [0xFFFFFFFFFFFFFFFF, 0x3F]) ∧
    (69 : Word).toNat < (70 : Word).toNat ∧ ¬ (70 : Word).toNat < (70 : Word).toNat ∧
    70 < 64 * ([0xFFFFFFFFFFFFFFFF, 0x3F] : List Word).length := by decide

theorem witness_PkLenCountResults : packedBlock.fault = false ∧
    packedBlock.slots[(0 : SlotRef).toNat]? = some (.packed 70 [0xFFFFFFFFFFFFFFFF, 0x3F]) ∧
    SlotWf packedBlock.params (.packed 70 [0xFFFFFFFFFFFFFFFF, 0x3F]) :=
  ⟨rfl, rfl, witness_SlotWf⟩

/-- FULL values of lengths 0, 1 and 2. -/
def fullBlock : State := block [.full [6], .full [3], .full [0x8000000000000001, 5], .full [], .packed 5 [0]]

theorem witness_FlConstructorResults : fullBlock.fault = false ∧ (4 : SlotRef).toNat < fullBlock.slots.length ∧
    (0 : Word).toNat % 64 = 0 ∧ (256 : Word).toNat % 64 = 0 ∧ (256 : Word).toNat / 64 ≤ fullBlock.params.maxW ∧
    ([1, 2, 3, 4] : List Word).length ≤ fullBlock.params.maxW ∧ fullBlock.slots[(3 : SlotRef).toNat]? = some (.full []) := by decide

theorem witness_FlBitAtLenResults : fullBlock.fault = false ∧
    fullBlock.slots[(2 : SlotRef).toNat]? = some (.full [0x8000000000000001, 5]) := by decide

theorem witness_FlSetBitResult : fullBlock.fault = false ∧
    fullBlock.slots[(2 : SlotRef).toNat]? = some (.full [0x8000000000000001, 5]) ∧
    (127 : Word).toNat < 64 * ([0x8000000000000001, 5] : List Word).length ∧
    ¬ (128 : Word).toNat < 64 * ([0x8000000000000001, 5] : List Word).length := by decide

theorem witness_FlCountResult : fullBlock.fault = false ∧ fullBlock.slots[(3 : SlotRef).toNat]? = some (.full []) := by decide

theorem witness_FlBytesResult : fullBlock.fault = false ∧ fullBlock.slots[(0 : SlotRef).toNat]? = some (.full [6]) ∧
    fullBlock.slots[(3 : SlotRef).toNat]? = some (.full []) := by decide

theorem witness_SerializationRoundTrips : fullBlock.fault = false ∧
    fullBlock.slots[(2 : SlotRef).toNat]? = some (.full [0x8000000000000001, 5]) := by decide

theorem witness_FlPredicateResults : fullBlock.fault = false ∧ fullBlock.slots[(0 : SlotRef).toNat]? = some (.full [6]) ∧
    fullBlock.slots[(1 : SlotRef).toNat]? = some (.full [3]) ∧ ([6] : List Word).length = ([3] : List Word).length ∧
    fullBlock.slots[(3 : SlotRef).toNat]? = some (.full []) := by decide

/-- D is a slot of another kind. -/
theorem witness_FlAllocatingAlgebraResults : fullBlock.fault = false ∧ (4 : SlotRef).toNat < fullBlock.slots.length ∧
    fullBlock.slots[(0 : SlotRef).toNat]? = some (.full [6]) ∧ fullBlock.slots[(1 : SlotRef).toNat]? = some (.full [3]) ∧
    ([6] : List Word).length = ([3] : List Word).length := by decide

/-- D is A itself. -/
theorem witness_FlNonAllocatingAlgebraResults : fullBlock.fault = false ∧
    fullBlock.slots[(0 : SlotRef).toNat]? = some (.full [6]) ∧ fullBlock.slots[(1 : SlotRef).toNat]? = some (.full [3]) ∧
    ([6] : List Word).length = ([3] : List Word).length := by decide

theorem witness_AlgebraLawsHold :
    (∃ t u, exec (.flOr 2 0 1) fullBlock = .next t ∧ exec (.flOr 2 1 0) fullBlock = .next u) ∧
    (fullBlock.fault = false ∧ (2 : SlotRef).toNat < fullBlock.slots.length ∧
      fullBlock.slots[(0 : SlotRef).toNat]? = some (.full [6])) ∧
    (∃ t u, exec (.flXor 1 0 0) fullBlock = .next t ∧ exec (.flXorNa 1 0 0) fullBlock = .next u ∧ u.fault = false) :=
  ⟨⟨_, _, rfl, rfl⟩, ⟨rfl, by decide, rfl⟩, _, _, rfl, rfl, rfl⟩

theorem witness_FlIndicesResults : fullBlock.fault = false ∧
    fullBlock.slots[(2 : SlotRef).toNat]? = some (.full [0x8000000000000001, 5]) := by decide

theorem witness_EnumerationLawsHold : fullBlock.fault = false ∧
    fullBlock.slots[(2 : SlotRef).toNat]? = some (.full [0x8000000000000001, 5]) ∧
    ([0x8000000000000001, 5] : List Word).length < 2 ^ 58 := by decide

theorem witness_SetbitChangesOneBit : (127 : Word).toNat / 64 < ([0, 0] : List Word).length := by decide

theorem witness_LowestBitIsolated : (0x8000000000000000 : Word) ≠ 0 := by decide

/-- The first index out of range of each family, and the last in range of the two with words. -/
theorem witness_OutOfBoundsIsHarmless : fixed2Block.fault = false ∧
    fixed2Block.slots[(1 : SlotRef).toNat]? = some (.fixed2 [0xFE]) ∧ slotLen (.fixed2 [0xFE]) ≤ (2 : Word).toNat ∧
    packedBlock.fault = false ∧ packedBlock.slots[(0 : SlotRef).toNat]? = some (.packed 70 [0xFFFFFFFFFFFFFFFF, 0x3F]) ∧
    slotLen (.packed 70 [0xFFFFFFFFFFFFFFFF, 0x3F]) ≤ (70 : Word).toNat ∧
    fullBlock.fault = false ∧ fullBlock.slots[(0 : SlotRef).toNat]? = some (.full [6]) ∧ slotLen (.full [6]) ≤ (64 : Word).toNat ∧
    SlotWf packedBlock.params (.packed 70 [0xFFFFFFFFFFFFFFFF, 0x3F]) ∧ (69 : Word).toNat < (70 : Word).toNat ∧
    (63 : Word).toNat < 64 * ([6] : List Word).length :=
  ⟨rfl, rfl, by decide, rfl, rfl, by decide, rfl, rfl, by decide, witness_SlotWf, by decide, by decide⟩

theorem witness_BitAtReadsWhatSetBitWrote : fixed2Block.fault = false ∧
    fixed2Block.slots[(1 : SlotRef).toNat]? = some (.fixed2 [0xFE]) ∧ (1 : Word).toNat < 2 ∧
    packedBlock.slots[(0 : SlotRef).toNat]? = some (.packed 70 [0xFFFFFFFFFFFFFFFF, 0x3F]) ∧ (69 : Word).toNat < (70 : Word).toNat ∧
    fullBlock.slots[(0 : SlotRef).toNat]? = some (.full [6]) ∧ (63 : Word).toNat < 64 * ([6] : List Word).length := by decide

end Sys2Proof.Tests
end

-- The proofs of the family 00_scope.md: what every step keeps, the reset state, F2.SHIFT.
section
/-! PROOFS. What one step can do, said once; the parameters and the form of the state, which every step keeps (spec 00_scope.md rule R6, 10_state.md rules R21 to R31); the reset state (R36); the result of F2.SHIFT (41_fixed2.md rule R128). -/

namespace Sys2Proof.Proofs

open Sys2Proof Sys2Proof.Machine Sys2Proof.Safety Sys2Proof.Laws

/-! ### What one step can do (R85) -/

/-- The four ways a step ends: it waits, it resets, it rejects a command that does not decode, or it runs one. -/
theorem step_cases {s t : State} (h : step s = .next t) :
    (s.inbox = [] ∧ t = s) ∨
    (∃ rest, s.inbox = .reset :: rest ∧ t = resetEvent (takeEvent s)) ∨
    (∃ cmd rest c, s.inbox = .command cmd :: rest ∧ decode cmd = .error c ∧ t = rejectCommand (takeEvent s) cmd c) ∨
    (∃ cmd rest i, s.inbox = .command cmd :: rest ∧ decode cmd = .ok i ∧ exec i (takeEvent s) = .next t) := by
  unfold step at h
  split at h
  · next hin => exact .inl ⟨hin, by simpa using h.symm⟩
  · next rest hin => exact .inr (.inl ⟨rest, hin, by simpa using h.symm⟩)
  · next cmd rest hin =>
    split at h
    · next c hc => exact .inr (.inr (.inl ⟨cmd, rest, c, hin, hc, by simpa using h.symm⟩))
    · next i hi => exact .inr (.inr (.inr ⟨cmd, rest, i, hin, hi, h⟩))

/-- A command that does not decode is answered HALTED or with the fault of its decoding (R252, R255). -/
theorem rejectCommand_cases (s : State) (cmd : List Word) (c : FaultCode) :
    rejectCommand s cmd c = answerHalted s (cmd.headD 0) ∨ rejectCommand s cmd c = takeFault s c (cmd.headD 0) := by
  cases hf : s.fault
  · exact .inr (by simp [rejectCommand, answer, hf])
  · exact .inl (by simp [rejectCommand, answer, hf])

/-- The ways any command ends, SYS.STATUS among them: HALTED, a fault, or its effect. -/
theorem exec_outcome {i : Instr} {s t : State} (h : exec i s = .next t) :
    t = answerHalted s (header i) ∨ (∃ c, t = takeFault s c (header i)) ∨ Effect i s t := by
  by_cases hi : i = .sysStatus
  · subst hi
    rw [exec_sysStatus, Host.Outcome.next.injEq] at h
    exact .inr (.inr (h ▸ effect_sysStatus s))
  · rcases exec_cases hi h with ⟨-, ht⟩ | ⟨-, ht⟩ | ⟨-, ht⟩
    · exact .inl ht
    · exact .inr (.inl ht)
    · exact .inr (.inr ht)

/-! ### The parameters and the number of slots (R6, R21) -/

/-- `t` is a block of the same parameters and the same number of slots as `s`. -/
def SameConfig (s t : State) : Prop := t.params = s.params ∧ t.slots.length = s.slots.length

theorem effect_sameConfig {i : Instr} {s t : State} (h : Effect i s t) : SameConfig s t := by
  refine ⟨h.params, ?_⟩
  rcases h.slots with hs | ⟨d, v, -, hs⟩ <;> simp [hs]

theorem exec_sameConfig {i : Instr} {s t : State} (h : exec i s = .next t) : SameConfig s t := by
  rcases exec_outcome h with rfl | ⟨c, rfl⟩ | he
  · exact ⟨rfl, rfl⟩
  · exact ⟨rfl, rfl⟩
  · exact effect_sameConfig he

theorem rejectCommand_sameConfig (s : State) (cmd : List Word) (c : FaultCode) :
    SameConfig s (rejectCommand s cmd c) := by
  rcases rejectCommand_cases s cmd c with h | h <;> rw [h] <;> exact ⟨rfl, rfl⟩

theorem resetEvent_sameConfig (s : State) : SameConfig s (resetEvent s) := ⟨rfl, by simp⟩

/-- Settles O20: every way a step ends keeps the configuration, a slot being written in place. -/
theorem stepKeepsParameters : Obligations.StepKeepsParameters := by
  intro s t h
  rcases step_cases h with ⟨-, rfl⟩ | ⟨_, -, rfl⟩ | ⟨cmd, _, c, -, -, rfl⟩ | ⟨_, _, i, -, -, hi⟩
  · exact ⟨rfl, rfl⟩
  · exact resetEvent_sameConfig (takeEvent s)
  · exact rejectCommand_sameConfig (takeEvent s) cmd c
  · exact exec_sameConfig (s := takeEvent s) hi

/-! ### Well-formed slot values (R22 to R26): what is read, and what each writing command writes -/

theorem inv_slotAt {s : State} (hs : Inv s) (r : SlotRef) : SlotWf s.params (slotAt s r) := by
  rcases Nat.lt_or_ge r.toNat s.slots.length with h | h
  · have hv : slotAt s r = s.slots[r.toNat] := slotAt_of_getElem (List.getElem?_eq_getElem h)
    exact hv ▸ hs.slots _ (List.getElem_mem h)
  · rw [slotAt_of_le h]
    trivial

theorem bytesAt_length_le {s : State} (hs : Inv s) (r : SlotRef) : (bytesAt s r).length ≤ s.params.maxB := by
  have hw := inv_slotAt hs r
  unfold bytesAt
  split
  · next bytes hv => simpa [hv, SlotWf] using hw
  · exact Nat.zero_le _

theorem wordsAt_length_le {s : State} (hs : Inv s) (r : SlotRef) : (wordsAt s r).length ≤ s.params.maxW := by
  have hw := inv_slotAt hs r
  unfold wordsAt
  split
  · next size words hv =>
    rw [hv] at hw
    obtain ⟨-, hle, -⟩ := hw
    exact hle
  · next words hv => simpa [hv, SlotWf] using hw
  · exact Nat.zero_le _

@[simp] theorem fixed2SetBit_length (bytes : List Byte) (idx : Word) (v : Bool) :
    (fixed2SetBit bytes idx v).length = bytes.length := by
  unfold fixed2SetBit
  split
  · split <;> rfl
  · rfl

@[simp] theorem fixed2Shift_length (target : ShiftTarget) (bytes : List Byte) (amount : Int) :
    (fixed2Shift target bytes amount).length = bytes.length := by
  simp [fixed2Shift]

theorem wc_eq (n : Word) : wc n = (n.toNat + 63) / 64 := by
  unfold wc
  split <;> omega

theorem bitOf_replicate_zero (n p : Nat) : bitOf (List.replicate n 0) p = false := by
  unfold bitOf
  rcases Nat.lt_or_ge (p / 64) n with h | h <;> simp [h]

/-- The byte F2.NEW writes fits, because `MAXB` is at least 1 (R6). -/
theorem slotWf_zeroByte {p : Params} (hp : p.legal) : SlotWf p (.fixed2 [0x00]) := by
  obtain ⟨-, hb, -⟩ := hp
  exact hb

theorem slotWf_fixed2_setBit {s : State} (hs : Inv s) (a : SlotRef) (idx : Word) (v : Bool) :
    SlotWf s.params (.fixed2 (fixed2SetBit (bytesAt s a) idx v)) := by
  simpa [SlotWf] using bytesAt_length_le hs a

theorem slotWf_fixed2_shift {s : State} (hs : Inv s) (a : SlotRef) (target : ShiftTarget) (amount : Int) :
    SlotWf s.params (.fixed2 (fixed2Shift target (bytesAt s a) amount)) := by
  simpa [SlotWf] using bytesAt_length_le hs a

/-- All bits of a new PACKED value are 0, its slack bits too (R151). -/
theorem slotWf_packed_zeros {p : Params} {n : Word} (h : wc n ≤ p.maxW) :
    SlotWf p (.packed n (List.replicate (wc n) 0)) := by
  refine ⟨?_, ?_, fun q _ _ => bitOf_replicate_zero _ q⟩
  · rw [List.length_replicate, wc_eq]
  · rwa [List.length_replicate]

/-- A PACKED value made of whole words has no slack (R152); its size is a u64 because `MAXW < 2^58` (R6). -/
theorem slotWf_packed_words {p : Params} {words : List Word} (hp : p.legal) (h : words.length ≤ p.maxW) :
    SlotWf p (.packed (BitVec.ofNat 64 (64 * words.length)) words) := by
  obtain ⟨hmax, -, -⟩ := hp
  have hsize : (BitVec.ofNat 64 (64 * words.length)).toNat = 64 * words.length := by
    rw [BitVec.toNat_ofNat, Nat.mod_eq_of_lt (by omega)]
  refine ⟨?_, h, ?_⟩
  · rw [hsize]
    omega
  · intro q hq hq'
    rw [hsize] at hq
    omega

/-- A bit written below the size is no slack bit (R154). -/
theorem slotWf_packed_setBit {p : Params} {size idx : Word} {words : List Word} (v : Bool)
    (h : SlotWf p (.packed size words)) (hi : idx.toNat < size.toNat) :
    SlotWf p (.packed size (setBit words idx v)) := by
  obtain ⟨hlen, hmax, hslack⟩ := h
  refine ⟨by rwa [setBit_length], by rwa [setBit_length], ?_⟩
  intro q hq hq'
  rw [setBit_length] at hq'
  rw [setBit_bitOf, if_neg (by omega), hslack q hq hq']

theorem slotWf_full_zeros {p : Params} {n : Nat} (h : n ≤ p.maxW) : SlotWf p (.full (List.replicate n 0)) := by
  simpa [SlotWf] using h

/-- The words of any slot make a FULL value (R181). -/
theorem slotWf_full_wordsAt {s : State} (hs : Inv s) (a : SlotRef) : SlotWf s.params (.full (wordsAt s a)) :=
  wordsAt_length_le hs a

/-- The word-wise combination of two slots has no more words than the first (R200). -/
theorem slotWf_full_zipWith {s : State} (hs : Inv s) (f : Word → Word → Word) (a b : SlotRef) :
    SlotWf s.params (.full (List.zipWith f (wordsAt s a) (wordsAt s b))) := by
  have ha := wordsAt_length_le hs a
  simp only [SlotWf, List.length_zipWith]
  omega

theorem slotWf_full_map {s : State} (hs : Inv s) (f : Word → Word) (a : SlotRef) :
    SlotWf s.params (.full ((wordsAt s a).map f)) := by
  simpa [SlotWf] using wordsAt_length_le hs a

theorem slotWf_full_setBit {s : State} (hs : Inv s) (a : SlotRef) (idx : Word) (v : Bool) :
    SlotWf s.params (.full (setBit (wordsAt s a) idx v)) := by
  simpa [SlotWf] using wordsAt_length_le hs a

/-! ### The form of the state under the shared operations -/

theorem inv_respond {s : State} (hs : Inv s) (ws : List Word) : Inv (respond s ws) :=
  ⟨hs.nslot, hs.params, hs.slots, hs.record⟩

theorem inv_takeEvent {s : State} (hs : Inv s) : Inv (takeEvent s) :=
  ⟨hs.nslot, hs.params, hs.slots, hs.record⟩

theorem inv_setSlot {s : State} (hs : Inv s) (r : SlotRef) {v : Slot} (hv : SlotWf s.params v) :
    Inv (setSlot s r v) := by
  refine ⟨by simpa using hs.nslot, hs.params, fun w hw => ?_, hs.record⟩
  rcases List.mem_or_eq_of_mem_set hw with hw | rfl
  · exact hs.slots w hw
  · exact hv

/-- A command that writes a well-formed value into a slot and answers keeps the form. -/
theorem inv_write {s : State} (hs : Inv s) {r : SlotRef} {v : Slot} {op : Byte} (hv : SlotWf s.params v) :
    Inv (respondNone (setSlot s r v) op) :=
  inv_respond (inv_setSlot hs r hv) _

theorem faultNumber_range (c : FaultCode) : 1 ≤ (faultNumber c).toNat ∧ (faultNumber c).toNat ≤ 8 := by
  cases c <;> decide

/-- A fault writes the record with a code of R250 and no slot (R253). -/
theorem inv_takeFault {s : State} (hs : Inv s) (c : FaultCode) (hdr : Word) : Inv (takeFault s c hdr) :=
  ⟨hs.nslot, hs.params, hs.slots, by simpa [RecordWf] using faultNumber_range c⟩

theorem inv_rejectCommand {s : State} (hs : Inv s) (cmd : List Word) (c : FaultCode) :
    Inv (rejectCommand s cmd c) := by
  rcases rejectCommand_cases s cmd c with h | h <;> rw [h]
  · exact inv_respond hs _
  · exact inv_takeFault hs c _

/-- Every slot is EMPTY after reset and the record is clear (R36), which is well formed for any legal parameters. -/
theorem inv_resetWith {nslot : Nat} {p : Params} (h1 : 1 ≤ nslot) (h256 : nslot ≤ 256) (hp : p.legal) :
    Inv (State.resetWith nslot p) := by
  refine ⟨by simpa [State.resetWith] using ⟨h1, h256⟩, hp, fun v hv => ?_, ⟨rfl, rfl⟩⟩
  obtain rfl := List.eq_of_mem_replicate hv
  trivial

theorem inv_resetEvent {s : State} (hs : Inv s) : Inv (resetEvent s) := by
  obtain ⟨h1, h256⟩ := hs.nslot
  have h := inv_resetWith h1 h256 hs.params
  exact ⟨h.nslot, h.params, h.slots, h.record⟩

/-- Settles O19: `inv_resetWith`, which `State.reset` meets at the values of the spec's vectors. -/
theorem resetHasInvariant : Obligations.ResetHasInvariant :=
  ⟨fun _ _ h1 h256 hp => inv_resetWith h1 h256 hp,
    inv_resetWith (nslot := nslotVectors) (p := Params.vectors) (by decide) (by decide) (by decide)⟩

/-! ### The form of the state under a command, and under a step -/

/-- A command keeps the form if what it does after passing its checks keeps it: halting and faulting do. -/
theorem perform_keeps_inv {i : Instr} {s t : State} {checks : List (Option FaultCode)} {done : State} (hs : Inv s)
    (hd : (∀ c ∈ checks, c = none) → Inv done) (h : perform i s checks done = .next t) : Inv t := by
  rcases perform_cases h with ⟨-, rfl⟩ | ⟨-, c, -, rfl⟩ | ⟨-, hc, rfl⟩
  · exact inv_respond hs _
  · exact inv_takeFault hs c _
  · exact hd hc

/-- Check 8, once passed, bounds what is stored by the parameter. -/
theorem capacity_of_checks {checks : List (Option FaultCode)} {need limit : Nat} (hc : ∀ c ∈ checks, c = none)
    (h : checkCapacity need limit ∈ checks) : need ≤ limit :=
  checkCapacity_eq_none.1 (hc _ h)

/-- PK.SETBIT: the checks say that slot A is PACKED, and only a bit below its size is written (R154). -/
theorem execPkSetBit_keeps_inv {s t : State} {a : SlotRef} {v : Bool} {idx : Word} (hs : Inv s)
    (h : execPkSetBit a v idx s = .next t) : Inv t := by
  refine perform_keeps_inv hs (fun hc => ?_) h
  have hkinds : checkKinds s [(a, .packed)] = none := hc _ (by simp)
  obtain ⟨size, words, hv⟩ : ∃ size words, slotAt s a = .packed size words := by simpa using hkinds
  have hw := inv_slotAt hs a
  rw [hv] at hw
  rw [sizeAt_of hv, wordsAt_of_packed hv]
  split
  · next hi => exact inv_write hs (slotWf_packed_setBit v hw hi)
  · exact inv_respond hs _

/-- FL.SETBIT keeps the number of words, written bit or not (R174). -/
theorem execFlSetBit_keeps_inv {s t : State} {a : SlotRef} {v : Bool} {idx : Word} (hs : Inv s)
    (h : execFlSetBit a v idx s = .next t) : Inv t := by
  refine perform_keeps_inv hs (fun _ => ?_) h
  split
  · exact inv_write hs (slotWf_full_setBit hs a idx v)
  · exact inv_respond hs _

/-- Every command keeps the form: a query only answers, and every other writes a well-formed value. -/
theorem exec_keeps_inv {i : Instr} {s t : State} (hs : Inv s) (h : exec i s = .next t) : Inv t := by
  cases i with
  | sysStatus =>
    rw [exec_sysStatus, Host.Outcome.next.injEq] at h
    exact h ▸ inv_respond hs _
  | f2New d => exact perform_keeps_inv hs (fun _ => inv_write hs (slotWf_zeroByte hs.params)) h
  | f2From d bytes => exact perform_keeps_inv hs (fun hc => inv_write hs (capacity_of_checks hc (by simp))) h
  | f2SetBit a v idx => exact perform_keeps_inv hs (fun _ => inv_write hs (slotWf_fixed2_setBit hs a idx v)) h
  | f2Shift a amount => exact perform_keeps_inv hs (fun _ => inv_write hs (slotWf_fixed2_shift hs a _ _)) h
  | pkNew d n =>
    exact perform_keeps_inv hs (fun hc => inv_write hs (slotWf_packed_zeros (capacity_of_checks hc (by simp)))) h
  | pkFrom d words =>
    exact perform_keeps_inv hs
      (fun hc => inv_write hs (slotWf_packed_words hs.params (capacity_of_checks hc (by simp)))) h
  | pkSetBit a v idx => exact execPkSetBit_keeps_inv hs h
  | flNew d n =>
    exact perform_keeps_inv hs (fun hc => inv_write hs (slotWf_full_zeros (capacity_of_checks hc (by simp)))) h
  | flFrom d words => exact perform_keeps_inv hs (fun hc => inv_write hs (capacity_of_checks hc (by simp))) h
  | flSetBit a v idx => exact execFlSetBit_keeps_inv hs h
  | flClone d a => exact perform_keeps_inv hs (fun _ => inv_write hs (slotWf_full_wordsAt hs a)) h
  | flOr d a b | flAnd d a b | flXor d a b | flOrNa d a b | flAndNa d a b | flXorNa d a b =>
    exact perform_keeps_inv hs (fun _ => inv_write hs (slotWf_full_zipWith hs _ a b)) h
  | flNot d a | flNotNa d a => exact perform_keeps_inv hs (fun _ => inv_write hs (slotWf_full_map hs _ a)) h
  | f2BitAt | f2Len | f2Count | f2Bytes | f2Indices | pkBitAt | pkLen | pkCount | flBitAt | flLen | flCount
  | flBytes | flContains | flOverlaps | flIndices | flIndicesNa =>
    exact perform_keeps_inv hs (fun _ => inv_respond hs _) h

/-- Settles O18: each of the four ways a step ends keeps the form. -/
theorem stepKeepsInvariant : Obligations.StepKeepsInvariant := by
  intro s t hs h
  rcases step_cases h with ⟨-, rfl⟩ | ⟨_, -, rfl⟩ | ⟨cmd, _, c, -, -, rfl⟩ | ⟨_, _, i, -, -, hi⟩
  · exact hs
  · exact inv_resetEvent (inv_takeEvent hs)
  · exact inv_rejectCommand (inv_takeEvent hs) cmd c
  · exact exec_keeps_inv (inv_takeEvent hs) hi

/-! ### F2.SHIFT (R128) -/

/-- A command on one slot of the kind it needs passes its checks in a running block. -/
theorem perform_completes_of_kind {i : Instr} {s : State} {a : SlotRef} {v : Slot} {k : Kind} {done : State}
    (hf : s.fault = false) (ha : s.slots[a.toNat]? = some v) (hk : kindOf v = some k) :
    perform i s [checkSlots s [a], checkKinds s [(a, k)]] done = .next done := by
  have hslots : checkSlots s [a] = none := by simpa using inRange_of_getElem ha
  have hkinds : checkKinds s [(a, k)] = none := checkKinds_eq_none.2 (by simp [slotAt_of_getElem ha, hk])
  exact perform_completes hf (by simp [hslots, hkinds])

theorem clampInt_eq_max_min {x lo hi : Int} (h : lo ≤ hi) : clampInt x lo hi = max lo (min hi x) := by
  unfold clampInt
  split
  · omega
  · split <;> omega

/-- The low two bits of a byte are its remainder by 4. -/
theorem and_three_toNat (b : Byte) : (b &&& 0x03).toNat = b.toNat % 4 := by
  rw [BitVec.toNat_and]
  exact Nat.and_two_pow_sub_one_eq_mod b.toNat 2

/-- The byte F2.SHIFT writes, as arithmetic on the byte's value. -/
theorem shiftByte_eq (b : Byte) (amount : Int) :
    shiftByte b amount = BitVec.ofNat 8
      (if 0 ≤ max (-2) (min 2 amount) then b.toNat * 2 ^ (max (-2) (min 2 amount)).toNat % 256 % 4
        else b.toNat / 2 ^ (-max (-2) (min 2 amount)).toNat % 4) := by
  unfold shiftByte
  rw [clampInt_eq_max_min (by decide)]
  generalize max (-2) (min 2 amount) = c
  apply BitVec.eq_of_toNat_eq
  rw [and_three_toNat, BitVec.toNat_ofNat]
  split
  · rw [BitVec.toNat_shiftLeft, Nat.shiftLeft_eq]
    omega
  · rw [BitVec.toNat_ushiftRight, Nat.shiftRight_eq_div_pow]
    omega

theorem shiftPosition_eq (target : ShiftTarget) (len : Nat) :
    shiftPosition target len = if target = .first then 0 else len - 1 := by
  cases target <;> rfl

@[simp] theorem fixed2Shift_nil (target : ShiftTarget) (amount : Int) : fixed2Shift target [] amount = [] := rfl

/-- F2.SHIFT on a FIXED2 slot of a running block writes the shifted storage back and answers OK. -/
theorem execF2Shift_completes {s : State} {a : SlotRef} {bytes : List Byte} (amount : Word) (hf : s.fault = false)
    (ha : s.slots[a.toNat]? = some (.fixed2 bytes)) :
    exec (.f2Shift a amount) s = .next { s with
      slots := s.slots.set a.toNat (.fixed2 (fixed2Shift s.params.shiftTarget bytes amount.toInt))
      responses := s.responses ++ [[0x1700]] } := by
  refine (perform_completes_of_kind hf ha rfl).trans ?_
  rw [bytesAt_of (slotAt_of_getElem ha)]
  rfl

/-- Settles O31: the storage written back is the old one where it is empty, and else differs in byte `t` alone. -/
theorem f2ShiftResult : Obligations.F2ShiftResult := by
  intro s a amount bytes hf ha t c b b'
  rw [execF2Shift_completes amount hf ha]
  constructor
  · rintro rfl
    rw [fixed2Shift_nil, set_self ha]
  · intro _
    have hshift : fixed2Shift s.params.shiftTarget bytes amount.toInt = bytes.set t (BitVec.ofNat 8 b') := by
      rw [fixed2Shift, shiftPosition_eq, shiftByte_eq]
    rw [hshift]

end Sys2Proof.Proofs
end

-- The proofs of the family 10_state.md: the frame of every command, the halt, bits below and past the length.
section
/-! PROOFS. The state after reset (spec 10_state.md rule R36); what a command leaves unchanged (R29, R31, R51) and what it does in a halted block (R32, 60_exceptions.md rule R255); the commands that read and write a bit, against the logical bit of R28, in range and past the length (R27, R108). -/

namespace Sys2Proof.Proofs

open Sys2Proof Sys2Proof.Machine Sys2Proof.Safety Sys2Proof.Laws

/-! ### The reset state (R36) -/

/-- Settles O14: the reset state's slots are copies of EMPTY, its record all zeros. -/
theorem resetValues : Obligations.ResetValues := by
  refine ⟨fun nslot p => ⟨List.length_replicate, fun n hn => ?_, rfl, rfl, rfl⟩, nslotVectors, Params.vectors, rfl⟩
  rw [State.resetWith, List.getElem?_replicate, if_pos hn]

/-! ### What a command leaves unchanged (R29, R31) -/

/-- A command writes no slot but its destination: a halted or faulting one writes none. -/
theorem exec_slots {i : Instr} {s t : State} (h : exec i s = .next t) :
    t.slots = s.slots ∨ ∃ d v, destination i = some d ∧ t.slots = s.slots.set d.toNat v := by
  rcases exec_outcome h with rfl | ⟨c, rfl⟩ | he
  · exact .inl rfl
  · exact .inl rfl
  · exact he.slots

theorem exec_slots_getElem?_of_ne {i : Instr} {s t : State} {n : Nat} (h : exec i s = .next t)
    (hn : ∀ r, destination i = some r → r.toNat ≠ n) : t.slots[n]? = s.slots[n]? := by
  rcases exec_slots h with hs | ⟨d, v, hd, hs⟩
  · rw [hs]
  · rw [hs, List.getElem?_set_ne (hn d hd)]

theorem exec_inbox {i : Instr} {s t : State} (h : exec i s = .next t) : t.inbox = s.inbox := by
  rcases exec_outcome h with rfl | ⟨c, rfl⟩ | he
  · rfl
  · rfl
  · exact he.inbox

/-- Only a fault writes the record, and a fault is taken in a running block alone, so it changes FAULT (R31, R253). -/
theorem exec_record {i : Instr} {s t : State} (h : exec i s = .next t) (hf : t.fault = s.fault) :
    t.fcode = s.fcode ∧ t.fhdr = s.fhdr := by
  by_cases hi : i = .sysStatus
  · subst hi
    rw [exec_sysStatus, Host.Outcome.next.injEq] at h
    subst h
    exact ⟨rfl, rfl⟩
  · rcases exec_cases hi h with ⟨-, rfl⟩ | ⟨hrun, c, rfl⟩ | ⟨-, he⟩
    · exact ⟨rfl, rfl⟩
    · rw [hrun] at hf
      cases hf
    · exact ⟨he.fcode, he.fhdr⟩

/-- Settles O21: from the three ways a command ends, field by field. -/
theorem onlyDestinationChanges : Obligations.OnlyDestinationChanges := by
  intro i s t h
  obtain ⟨hparams, hlen⟩ := exec_sameConfig h
  exact ⟨fun _ hn => exec_slots_getElem?_of_ne h hn, hlen, hparams, exec_inbox h, exec_record h⟩

/-! ### Decoding gives the header back (R71, R72) -/

/-- The field where the row uses it, 0 where it does not (R72). -/
def usedSlot (r : Row) (x : Field) (ref : SlotRef) : SlotRef := if r.fields.contains x then ref else 0

/-- The header of the command a row builds: the row's opcode and the fields it uses, row by row. -/
theorem header_build {r : Row} (hr : r ∈ opcodeTable) (f : Fields) :
    header (r.build f) = headerWord r.op (usedSlot r .d f.d) (usedSlot r .a f.a) (usedSlot r .b f.b)
      (r.fields.contains .v && f.v) := by
  revert r
  simp only [opcodeTable, rowsSystem, rowsFixed2, rowsPacked, rowsFullAccess, rowsFullAlgebra, rowsFullEnumeration,
    List.forall_mem_append, List.forall_mem_cons, List.not_mem_nil, false_imp_iff, implies_true, and_true]
  and_intros <;> rfl

/-- A legal header is made of its opcode and the fields its row uses. -/
theorem headerWord_of_headerLegal {r : Row} {h : Word} (hl : headerLegal r h = true) :
    headerWord (opOf h) (usedSlot r .d (dOf h)) (usedSlot r .a (aOf h)) (usedSlot r .b (bOf h))
      (r.fields.contains .v && vOf h) = h := by
  simp only [headerLegal, Bool.and_eq_true, Bool.or_eq_true, beq_iff_eq, Bool.not_eq_true'] at hl
  obtain ⟨⟨⟨⟨hrsv, hd⟩, ha⟩, hb⟩, hv⟩ := hl
  have hslot : ∀ x ref, (r.fields.contains x = true ∨ ref = 0) → usedSlot r x ref = ref := by
    intro x ref hx
    unfold usedSlot
    split
    · rfl
    · next hn => exact (hx.resolve_left hn).symm
  have hvused : (r.fields.contains .v && vOf h) = vOf h := by
    rcases hv with hv | hv
    · rw [hv, Bool.true_and]
    · rw [hv, Bool.and_false]
  rw [hslot _ _ hd, hslot _ _ ha, hslot _ _ hb, hvused, headerWord_fields hrsv]

/-- What a word list that decodes is: a header of some row, legal for it, with as many words as its format asks for. -/
theorem decode_eq_ok {h : Word} {ops : List Word} {i : Instr} (hd : decode (h :: ops) = .ok i) :
    ∃ r, rowOf (opOf h) = some r ∧ headerLegal r h = true ∧ requiredLength r.format ops = some (1 + ops.length) ∧
      i = r.build (fieldsOf h ops) := by
  rw [decode] at hd
  split at hd
  · cases hd
  · next r hr =>
    split at hd
    · cases hd
    · next hlegal =>
      split at hd
      · cases hd
      · next hlen => exact ⟨r, hr, by simpa using hlegal, by simpa using hlen, by simpa using hd.symm⟩

/-- The header a command encodes to is the one it was decoded from. -/
theorem header_of_decode {h : Word} {ops : List Word} {i : Instr} (hd : decode (h :: ops) = .ok i) :
    header i = h := by
  obtain ⟨r, hr, hlegal, -, rfl⟩ := decode_eq_ok hd
  have hop : r.op = opOf h := by simpa using List.find?_some hr
  rw [header_build (List.mem_of_find?_eq_some hr), hop]
  exact headerWord_of_headerLegal hlegal

/-- SYS.STATUS has one encoding, the word 1 (R259). -/
theorem decode_eq_sysStatus {cmd : List Word} : decode cmd = .ok .sysStatus ↔ cmd = [1] := by
  constructor
  · intro hd
    cases cmd with
    | nil => cases hd
    | cons h ops =>
      have hh : (1 : Word) = h := header_of_decode hd
      subst hh
      obtain ⟨r, hr, -, hlen, -⟩ := decode_eq_ok hd
      have hrow : rowOf (opOf 1) = some ⟨0x01, .h, [], [], .status, fun _ => .sysStatus⟩ := rfl
      obtain rfl := Option.some.inj (hrow.symm.trans hr)
      have : ops.length = 0 := by simpa [requiredLength] using hlen
      rw [List.length_eq_zero_iff.1 this]
  · rintro rfl
    rfl

/-! ### The halted block (R32, R255) -/

/-- A command other than SYS.STATUS in a halted block is answered HALTED. -/
theorem exec_halted {i : Instr} {s : State} (hf : s.fault = true) (hi : i ≠ .sysStatus) :
    exec i s = .next (answerHalted s (header i)) := by
  obtain ⟨checks, done, hp, -⟩ := exec_eq_perform s hi
  simp [hp, perform, answer, hf]

theorem rejectCommand_halted {s : State} (hf : s.fault = true) (cmd : List Word) (c : FaultCode) :
    rejectCommand s cmd c = answerHalted s (cmd.headD 0) := by
  simp [rejectCommand, answer, hf]

/-- So is a command that does not decode: the halt comes before every check. -/
theorem step_halted {s : State} {cmd : List Word} {rest : List PortEvent} (hf : s.fault = true)
    (hin : s.inbox = .command cmd :: rest) (hcmd : cmd ≠ [1]) :
    step s = .next (answerHalted { s with inbox := rest } (cmd.headD 0)) := by
  rw [step_command hin]
  cases hd : decode cmd with
  | error c =>
    have hreject := rejectCommand_halted (s := { s with inbox := rest }) hf cmd c
    exact congrArg Host.Outcome.next hreject
  | ok i =>
    have hi : i ≠ .sysStatus := fun e => hcmd (decode_eq_sysStatus.1 (e ▸ hd))
    have hheader : header i = cmd.headD 0 := by
      cases cmd with
      | nil => cases hd
      | cons h ops => exact header_of_decode hd
    rw [← hheader]
    exact exec_halted hf hi

/-- SYS.STATUS answers with the record, halted or not (R259). -/
theorem step_sysStatus {s : State} {rest : List PortEvent} (hin : s.inbox = .command [1] :: rest) :
    step s = .next (respondStatus { s with inbox := rest } 0x01) := by
  rw [step_command hin, decode_eq_sysStatus.2 rfl]
  exact exec_sysStatus _

/-- The response header of R81, from the header word it echoes. -/
theorem rsp_opOf (status : Byte) (h : Word) :
    rsp status (opOf h) = BitVec.ofNat 64 (status.toNat + h.toNat % 256 * 256) := by
  rw [rsp, opOf_toNat]
  rfl

/-- Settles O16: a halted block answers SYS.STATUS from the record and every other command with HALTED, and neither
writes the record or a slot. -/
theorem faultRecordSticky : Obligations.FaultRecordSticky := by
  intro s t cmd rest hf hin hstep
  by_cases hcmd : cmd = [1]
  · subst hcmd
    rw [step_sysStatus hin, Host.Outcome.next.injEq] at hstep
    subst hstep
    exact ⟨hf, rfl, rfl, rfl, fun hne => absurd rfl hne⟩
  · rw [step_halted hf hin hcmd, Host.Outcome.next.injEq] at hstep
    subst hstep
    refine ⟨hf, rfl, rfl, rfl, fun _ => ?_⟩
    rw [answerHalted_responses, rsp_opOf]
    rfl

/-! ### Reading a bit (R123, R153, R173) -/

/-- F2.BITAT's value function is the logical bit. -/
theorem fixed2Bit_eq_slotBit (bytes : List Byte) (idx : Word) :
    fixed2Bit bytes idx = slotBit (.fixed2 bytes) idx.toNat := by
  match bytes with
  | [] => rfl
  | [b] => by_cases h : idx.toNat < 2 <;> simp [fixed2Bit, slotBit, h]
  | _ :: _ :: _ => rfl

/-- The bounds-checked read of PK.BITAT and FL.BITAT: 0 at or past the length, the bit of the words below it. -/
theorem boundedGetBit_eq (len : Nat) (words : List Word) (idx : Word) :
    (if len ≤ idx.toNat then false else getBit words idx) = (decide (idx.toNat < len) && bitOf words idx.toNat) := by
  rw [getBit_eq_bitOf]
  by_cases h : idx.toNat < len
  · rw [if_neg (Nat.not_le.2 h), decide_eq_true h, Bool.true_and]
  · rw [if_pos (Nat.not_lt.1 h), decide_eq_false h, Bool.false_and]

/-- Settles O28: its value function is the logical bit. -/
theorem f2BitAtResult : Obligations.F2BitAtResult := by
  intro s a idx bytes hf ha
  refine (perform_completes_of_kind hf ha rfl).trans ?_
  rw [bytesAt_of (slotAt_of_getElem ha), fixed2Bit_eq_slotBit]
  rfl

/-- Settles O36: the read is bounded by the declared size. -/
theorem pkBitAtResult : Obligations.PkBitAtResult := by
  intro s a idx size words hf ha
  refine (perform_completes_of_kind hf ha rfl).trans ?_
  have hv := slotAt_of_getElem ha
  rw [wordsAt_of_packed hv, sizeAt_of hv, boundedGetBit_eq]
  rfl

theorem execFlBitAt_completes {s : State} {a : SlotRef} {words : List Word} (idx : Word) (hf : s.fault = false)
    (ha : s.slots[a.toNat]? = some (.full words)) :
    exec (.flBitAt a idx) s = .next { s with
      responses := s.responses ++ [[0x3200, if slotBit (.full words) idx.toNat then 1 else 0]] } := by
  refine (perform_completes_of_kind hf ha rfl).trans ?_
  rw [wordsAt_of_full (slotAt_of_getElem ha), boundedGetBit_eq]
  rfl

theorem execFlLen_completes {s : State} {a : SlotRef} {words : List Word} (hf : s.fault = false)
    (ha : s.slots[a.toNat]? = some (.full words)) :
    exec (.flLen a) s = .next { s with
      responses := s.responses ++ [[0x3400, BitVec.ofNat 64 (64 * words.length)]] } := by
  refine (perform_completes_of_kind hf ha rfl).trans ?_
  rw [wordsAt_of_full (slotAt_of_getElem ha)]
  rfl

/-- Settles O40: the read is bounded by the number of bits of the words, which is the length FL.LEN answers. -/
theorem flBitAtLenResults : Obligations.FlBitAtLenResults :=
  fun _ _ idx _ hf ha => ⟨execFlBitAt_completes idx hf ha, execFlLen_completes hf ha⟩

/-! ### F2.INDICES (R129) -/

/-- F2.INDICES's value function lists the positions 0 and 1 whose logical bit is 1. -/
theorem fixed2Indices_eq_filter (bytes : List Byte) :
    fixed2Indices bytes = [0, 1].filter fun k => slotBit (.fixed2 bytes) k.toNat := by
  match bytes with
  | [] => rfl
  | [b] =>
    have h0 : slotBit (.fixed2 [b]) (0 : Word).toNat = b.getLsbD 0 := rfl
    have h1 : slotBit (.fixed2 [b]) (1 : Word).toNat = b.getLsbD 1 := rfl
    rw [fixed2Indices, List.filter_cons, List.filter_cons, List.filter_nil, h0, h1]
    cases b.getLsbD 0 <;> cases b.getLsbD 1 <;> rfl
  | _ :: _ :: _ => rfl

/-- Settles O32: its value function is the ascending list of R129. -/
theorem f2IndicesResult : Obligations.F2IndicesResult := by
  intro s a bytes hf ha xs
  refine (perform_completes_of_kind hf ha rfl).trans ?_
  rw [bytesAt_of (slotAt_of_getElem ha), fixed2Indices_eq_filter]
  rfl

/-! ### Writing a bit (R124, R154, R174) -/

/-- F2.SETBIT on a FIXED2 slot of a running block writes the storage back with the bit set. -/
theorem execF2SetBit_completes {s : State} {a : SlotRef} {bytes : List Byte} (v : Bool) (idx : Word)
    (hf : s.fault = false) (ha : s.slots[a.toNat]? = some (.fixed2 bytes)) :
    exec (.f2SetBit a v idx) s = .next { s with
      slots := s.slots.set a.toNat (.fixed2 (fixed2SetBit bytes idx v))
      responses := s.responses ++ [[0x1300]] } := by
  refine (perform_completes_of_kind hf ha rfl).trans ?_
  rw [bytesAt_of (slotAt_of_getElem ha)]
  rfl

theorem fixed2SetBit_of_le {bytes : List Byte} {idx : Word} (v : Bool) (h : 2 ≤ idx.toNat) :
    fixed2SetBit bytes idx v = bytes := by
  unfold fixed2SetBit
  split
  · rw [if_neg (Nat.not_lt.2 h)]
  · rfl

/-- The words after a write bounded by `len`: as they were at or past it (R154, R174). -/
def boundedSetBit (len : Nat) (words : List Word) (idx : Word) (v : Bool) : List Word :=
  if idx.toNat < len then setBit words idx v else words

theorem boundedSetBit_of_le {len : Nat} {words : List Word} {idx : Word} (v : Bool) (h : len ≤ idx.toNat) :
    boundedSetBit len words idx v = words :=
  if_neg (Nat.not_lt.2 h)

@[simp] theorem boundedSetBit_length (len : Nat) (words : List Word) (idx : Word) (v : Bool) :
    (boundedSetBit len words idx v).length = words.length := by
  unfold boundedSetBit
  split
  · exact setBit_length words idx v
  · rfl

/-- One bit below the bound may change, and no other. -/
theorem boundedSetBit_bitOf (len : Nat) {words : List Word} (idx : Word) (v : Bool) {p : Nat}
    (hp : p < 64 * words.length) :
    bitOf (boundedSetBit len words idx v) p = if p = idx.toNat ∧ idx.toNat < len then v else bitOf words p := by
  by_cases h : idx.toNat < len
  · have hiff : (p = idx.toNat ∧ idx.toNat < 64 * words.length) ↔ (p = idx.toNat ∧ idx.toNat < len) := by omega
    rw [boundedSetBit, if_pos h, setBit_bitOf, if_congr hiff rfl rfl]
  · rw [boundedSetBit, if_neg h, if_neg fun hc => h hc.2]

/-- PK.SETBIT on a PACKED slot of a running block is a write bounded by the size; past it the slot keeps its value. -/
theorem execPkSetBit_completes {s : State} {a : SlotRef} {size : Word} {words : List Word} (v : Bool) (idx : Word)
    (hf : s.fault = false) (ha : s.slots[a.toNat]? = some (.packed size words)) :
    exec (.pkSetBit a v idx) s = .next { s with
      slots := s.slots.set a.toNat (.packed size (boundedSetBit size.toNat words idx v))
      responses := s.responses ++ [[0x2300]] } := by
  refine (perform_completes_of_kind hf ha rfl).trans ?_
  have hv := slotAt_of_getElem ha
  rw [wordsAt_of_packed hv, sizeAt_of hv, boundedSetBit]
  split
  · rfl
  · rw [set_self ha]
    rfl

/-- FL.SETBIT on a FULL slot of a running block is a write bounded by the number of bits of the words. -/
theorem execFlSetBit_completes {s : State} {a : SlotRef} {words : List Word} (v : Bool) (idx : Word)
    (hf : s.fault = false) (ha : s.slots[a.toNat]? = some (.full words)) :
    exec (.flSetBit a v idx) s = .next { s with
      slots := s.slots.set a.toNat (.full (boundedSetBit (64 * words.length) words idx v))
      responses := s.responses ++ [[0x3300]] } := by
  refine (perform_completes_of_kind hf ha rfl).trans ?_
  rw [wordsAt_of_full (slotAt_of_getElem ha), boundedSetBit]
  split
  · rfl
  · rw [set_self ha]
    rfl

/-- Settles O37: the words written are those of a write bounded by the size. -/
theorem pkSetBitResult : Obligations.PkSetBitResult := by
  intro s a v idx size words hf ha
  exact ⟨boundedSetBit size.toNat words idx v, execPkSetBit_completes v idx hf ha,
    boundedSetBit_length _ _ _ _, fun _ hp => boundedSetBit_bitOf _ _ _ hp⟩

/-! ### PK.LEN and PK.COUNT (R155, R156) -/

theorem execPkLen_completes {s : State} {a : SlotRef} {size : Word} {words : List Word} (hf : s.fault = false)
    (ha : s.slots[a.toNat]? = some (.packed size words)) :
    exec (.pkLen a) s = .next { s with responses := s.responses ++ [[0x2400, size]] } := by
  refine (perform_completes_of_kind hf ha rfl).trans ?_
  rw [sizeAt_of (slotAt_of_getElem ha)]
  rfl

/-- Every index below the size is a u64, so the reads of PK.COUNT are the logical bits below it. -/
theorem countP_getBit_eq (size : Word) (words : List Word) :
    ((List.range size.toNat).countP fun p => getBit words (BitVec.ofNat 64 p)) =
      (List.range size.toNat).countP fun p => bitOf words p := by
  apply List.countP_congr
  intro p hp
  have hlt : p < 2 ^ 64 := Nat.lt_trans (List.mem_range.1 hp) size.isLt
  rw [getBit_eq_bitOf, BitVec.toNat_ofNat, Nat.mod_eq_of_lt hlt]

theorem execPkCount_completes {s : State} {a : SlotRef} {size : Word} {words : List Word} (hf : s.fault = false)
    (ha : s.slots[a.toNat]? = some (.packed size words)) :
    exec (.pkCount a) s = .next { s with
      responses := s.responses ++
        [[0x2500, BitVec.ofNat 64 ((List.range size.toNat).countP fun p => bitOf words p)]] } := by
  refine (perform_completes_of_kind hf ha rfl).trans ?_
  have hv := slotAt_of_getElem ha
  rw [wordsAt_of_packed hv, sizeAt_of hv, countP_getBit_eq]
  rfl

/-- Positions where the bit is 0 add nothing to a count. -/
theorem countP_range_of_false {f : Nat → Bool} {n m : Nat} (hnm : n ≤ m)
    (hf : ∀ q, n ≤ q → q < m → f q = false) : (List.range n).countP f = (List.range m).countP f := by
  obtain ⟨k, rfl⟩ := Nat.exists_eq_add_of_le hnm
  have hrest : ((List.range k).map (n + ·)).countP f = 0 := by
    rw [List.countP_eq_zero]
    intro q hq
    obtain ⟨j, hj, rfl⟩ := List.mem_map.1 hq
    have hj : j < k := List.mem_range.1 hj
    simp [hf (n + j) (by omega) (by omega)]
  rw [List.range_add, List.countP_append, hrest, Nat.add_zero]

/-- The words of a well-formed PACKED value have room for its size, and the slack bits above it are 0 (R24, R25). -/
theorem countP_bitOf_of_slotWf {p : Params} {size : Word} {words : List Word} (h : SlotWf p (.packed size words)) :
    ((List.range size.toNat).countP fun q => bitOf words q) =
      (List.range (64 * words.length)).countP fun q => bitOf words q := by
  obtain ⟨hlen, -, hslack⟩ := h
  exact countP_range_of_false (by omega) hslack

/-- Settles O38: a count over a range is at most its length, and slack bits do not count. -/
theorem pkLenCountResults : Obligations.PkLenCountResults := by
  intro s a size words hf ha count
  have hle : count ≤ (List.range size.toNat).length := List.countP_le_length
  rw [List.length_range] at hle
  exact ⟨execPkLen_completes hf ha, execPkCount_completes hf ha, hle, countP_bitOf_of_slotWf⟩

/-! ### The bounds rule (R27, R108) -/

/-- The logical bit is 0 at or past the length. -/
theorem slotBit_of_le {x : Slot} {p : Nat} (h : slotLen x ≤ p) : slotBit x p = false := by
  have hout : ∀ b : Bool, (decide (p < slotLen x) && b) = false := fun b => by
    rw [decide_eq_false (Nat.not_lt.2 h), Bool.false_and]
  cases x with
  | empty => rfl
  | fixed2 bytes =>
    match bytes with
    | [] => rfl
    | [_] => exact hout _
    | _ :: _ :: _ => rfl
  | packed size words => exact hout _
  | full words => exact hout _

section
variable {s : State} {a : SlotRef} {idx : Word} (v : Bool)

theorem f2_outOfBounds {bytes : List Byte} (hf : s.fault = false) (ha : s.slots[a.toNat]? = some (.fixed2 bytes))
    (h : 2 ≤ idx.toNat) :
    exec (.f2BitAt a idx) s = .next { s with responses := s.responses ++ [[0x1200, 0]] } ∧
      exec (.f2SetBit a v idx) s = .next { s with responses := s.responses ++ [[0x1300]] } := by
  constructor
  · rw [f2BitAtResult s a idx bytes hf ha, slotBit_of_le (x := .fixed2 bytes) h]
    rfl
  · rw [execF2SetBit_completes v idx hf ha, fixed2SetBit_of_le v h, set_self ha]

theorem pk_outOfBounds {size : Word} {words : List Word} (hf : s.fault = false)
    (ha : s.slots[a.toNat]? = some (.packed size words)) (h : size.toNat ≤ idx.toNat) :
    exec (.pkBitAt a idx) s = .next { s with responses := s.responses ++ [[0x2200, 0]] } ∧
      exec (.pkSetBit a v idx) s = .next { s with responses := s.responses ++ [[0x2300]] } := by
  constructor
  · rw [pkBitAtResult s a idx size words hf ha, slotBit_of_le (x := .packed size words) h]
    rfl
  · rw [execPkSetBit_completes v idx hf ha, boundedSetBit_of_le v h, set_self ha]

theorem fl_outOfBounds {words : List Word} (hf : s.fault = false) (ha : s.slots[a.toNat]? = some (.full words))
    (h : 64 * words.length ≤ idx.toNat) :
    exec (.flBitAt a idx) s = .next { s with responses := s.responses ++ [[0x3200, 0]] } ∧
      exec (.flSetBit a v idx) s = .next { s with responses := s.responses ++ [[0x3300]] } := by
  constructor
  · rw [execFlBitAt_completes idx hf ha, slotBit_of_le (x := .full words) h]
    rfl
  · rw [execFlSetBit_completes v idx hf ha, boundedSetBit_of_le v h, set_self ha]

end

/-- Below the number of bits of the words the word of an index exists (R101). -/
theorem wordIndex_lt {idx : Word} {words : List Word} (h : idx.toNat < 64 * words.length) :
    wordIndex idx < words.length := by
  unfold wordIndex
  omega

/-- Settles O54: family by family past the length, and by the word count of R24 below it. -/
theorem outOfBoundsIsHarmless : Obligations.OutOfBoundsIsHarmless := by
  refine ⟨?_, fun p size idx ws hwf h => ?_, fun _ _ h => wordIndex_lt h⟩
  · intro s a x idx v hf ha hx k rd wr op hmem hk
    simp only [List.mem_cons, Prod.mk.injEq, List.not_mem_nil, or_false] at hmem
    rcases hmem with ⟨rfl, rfl, rfl, rfl⟩ | ⟨rfl, rfl, rfl, rfl⟩ | ⟨rfl, rfl, rfl, rfl⟩
    · obtain ⟨bytes, rfl⟩ := kindOf_eq_fixed2.1 hk
      exact f2_outOfBounds v hf ha hx
    · obtain ⟨size, words, rfl⟩ := kindOf_eq_packed.1 hk
      exact pk_outOfBounds v hf ha hx
    · obtain ⟨words, rfl⟩ := kindOf_eq_full.1 hk
      exact fl_outOfBounds v hf ha hx
  · obtain ⟨hlen, -, -⟩ := hwf
    exact wordIndex_lt (by omega)

end Sys2Proof.Proofs
end

-- The proofs of the family 20_memory.md: bytes packed into words, and FL.BYTES.
section
/-! PROOFS. The packing of bytes into words, byte by byte (spec 20_memory.md rules R52 and R54, 30_encoding.md rule R83), and the result of FL.BYTES (43_full_access.md rule R177). -/

namespace Sys2Proof.Proofs

open Sys2Proof Sys2Proof.Machine Sys2Proof.Safety Sys2Proof.Laws

/-! ### Packing bytes into words (R54, R83) -/

theorem packBytes_length_eq (bytes : List Byte) : (packBytes bytes).length = (bytes.length + 7) / 8 := by
  rw [packBytes_length, ceilDiv8_eq]

/-- Byte `j` is byte `j % 8` of the eight bytes from `8 * (j / 8)` on. -/
theorem getD_take_drop_eight (bytes : List Byte) (j : Nat) :
    ((bytes.drop (8 * (j / 8))).take 8).getD (j % 8) 0 = bytes.getD j 0 := by
  have hlt : j % 8 < 8 := Nat.mod_lt _ (by decide)
  rw [List.getD_eq_getElem?_getD, List.getElem?_take_of_lt hlt, List.getElem?_drop, Nat.div_add_mod,
    ← List.getD_eq_getElem?_getD]

theorem byteOf_packBytes (bytes : List Byte) (j : Nat) : byteOf (packBytes bytes) j = bytes.getD j 0 := by
  rw [byteOf, packBytes_getD, wordOfBytes_byte _ _ (Nat.mod_lt _ (by decide)), getD_take_drop_eight]

/-- Settles O25: the byte is found in the word that packs its group of eight. -/
theorem bytePackingLittleEndian : Obligations.BytePackingLittleEndian :=
  fun bytes => ⟨packBytes_length_eq bytes, byteOf_packBytes bytes⟩

/-! ### The trimmed bytes of a word list (R177) -/

theorem serialize_length_le (words : List Word) : (serialize words).length ≤ 8 * words.length := by
  have hle := trimZeros_length_le (bytesOfWords words)
  rwa [bytesOfWords_length] at hle

/-- Trimming removes zero bytes alone, so the bytes kept, with zeros past their end, are those of the words. -/
theorem serialize_getD (words : List Word) (j : Nat) : (serialize words).getD j 0 = byteOf words j := by
  rw [serialize, trimZeros_getD, bytesOfWords_getD]

theorem byteOf_eq_zero_of_serialize_length_le {words : List Word} {j : Nat} (h : (serialize words).length ≤ j) :
    byteOf words j = 0 := by
  rw [← serialize_getD, List.getD_eq_default _ _ h]

theorem byteOf_serialize_last_ne_zero {words : List Word} (h : (serialize words).length ≠ 0) :
    byteOf words ((serialize words).length - 1) ≠ 0 := by
  rw [← serialize_getD]
  exact trimZeros_last _ h

/-! ### FL.BYTES (R177) -/

/-- FL.BYTES on a FULL slot of a running block answers the trimmed bytes of its words. -/
theorem execFlBytes_completes {s : State} {a : SlotRef} {words : List Word} (hf : s.fault = false)
    (ha : s.slots[a.toNat]? = some (.full words)) :
    exec (.flBytes a) s = .next { s with
      responses := s.responses ++
        [0x3600 :: BitVec.ofNat 64 (serialize words).length :: packBytes (serialize words)] } := by
  refine (perform_completes_of_kind hf ha rfl).trans ?_
  rw [wordsAt_of_full (slotAt_of_getElem ha)]
  rfl

/-- Settles O43: the count is that of the trimmed bytes, and the words are their packing. -/
theorem flBytesResult : Obligations.FlBytesResult := by
  intro s a words hf ha
  have hpack : ∀ j, byteOf (packBytes (serialize words)) j = byteOf words j := fun j => by
    rw [byteOf_packBytes, serialize_getD]
  exact ⟨(serialize words).length, packBytes (serialize words), execFlBytes_completes hf ha,
    serialize_length_le words, fun _ => byteOf_eq_zero_of_serialize_length_le, byteOf_serialize_last_ne_zero,
    packBytes_length_eq _, hpack⟩

end Sys2Proof.Proofs
end

-- The proofs of the family 30_encoding.md: the decoder and the encoder, checks 1 to 3, the responses.
section
/-! PROOFS. The decoder and the encoder, each the other's inverse (spec 30_encoding.md rules R70 to R80); the commands the decoder refuses (60_exceptions.md rule R252, checks 1 to 3); one response per command and its shape (30_encoding.md rules R81 to R84). -/

namespace Sys2Proof.Proofs

open Sys2Proof Sys2Proof.Machine Sys2Proof.Safety Sys2Proof.Laws

/-! ### What a word list decodes to (R72, R77, R78) -/

theorem decode_of_no_row {h : Word} {ops : List Word} (hr : rowOf (opOf h) = none) :
    decode (h :: ops) = .error .illegalCommand := by
  rw [decode, hr]

section
variable {h : Word} {ops : List Word} {r : Row} (hr : rowOf (opOf h) = some r)
include hr

theorem decode_of_headerLegal_eq_false (hl : headerLegal r h = false) :
    decode (h :: ops) = .error .illegalCommand := by
  simp only [decode, hr, if_pos hl]

theorem decode_of_requiredLength_ne (hl : headerLegal r h = true)
    (hn : requiredLength r.format ops ≠ some (1 + ops.length)) : decode (h :: ops) = .error .badLength := by
  simp only [decode, hr, hl, if_pos hn, Bool.true_eq_false, if_false]

theorem decode_of_requiredLength_eq (hl : headerLegal r h = true)
    (hn : requiredLength r.format ops = some (1 + ops.length)) :
    decode (h :: ops) = .ok (r.build (fieldsOf h ops)) := by
  simp only [decode, hr, hl, hn, ne_eq, not_true_eq_false, Bool.true_eq_false, if_false]

end

/-! ### The bytes an HPB payload carries (R75) -/

theorem take_bytesOfWords_length {words : List Word} {n : Nat} (h : n ≤ 8 * words.length) :
    ((bytesOfWords words).take n).length = n := by
  rw [List.length_take, bytesOfWords_length, Nat.min_eq_left h]

theorem take_bytesOfWords_getD (words : List Word) {n j : Nat} (h : j < n) :
    ((bytesOfWords words).take n).getD j 0 = byteOf words j := by
  rw [← bytesOfWords_getD, List.getD_eq_getElem?_getD, List.getElem?_take_of_lt h, ← List.getD_eq_getElem?_getD]

theorem le_eight_mul_ceilDiv8 (n : Nat) : n ≤ 8 * ceilDiv8 n := by
  rw [ceilDiv8_eq]
  omega

/-- Packed bytes are read back by their count. -/
theorem take_bytesOfWords_packBytes (bytes : List Byte) :
    (bytesOfWords (packBytes bytes)).take bytes.length = bytes := by
  have hlen : ((bytesOfWords (packBytes bytes)).take bytes.length).length = bytes.length :=
    take_bytesOfWords_length (by simpa using le_eight_mul_ceilDiv8 bytes.length)
  refine List.ext_getElem hlen fun j h1 h2 => ?_
  have hbyte := take_bytesOfWords_getD (packBytes bytes) h2
  rwa [byteOf_packBytes, List.getD_eq_getElem _ _ h1, List.getD_eq_getElem _ _ h2] at hbyte

/-! ### The round trip from a command (R71, R73, R75 to R77) -/

/-- The encoding of every well-formed command passes checks 1 to 3 of R252. -/
theorem encodingAccepted : ∀ i, EncodingAccepted.Statement i
  | .sysStatus => EncodingAccepted.sysStatus
  | .f2New d => EncodingAccepted.f2New d
  | .f2From d bytes => EncodingAccepted.f2From d bytes
  | .f2BitAt a idx => EncodingAccepted.f2BitAt a idx
  | .f2SetBit a v idx => EncodingAccepted.f2SetBit a v idx
  | .f2Len a => EncodingAccepted.f2Len a
  | .f2Count a => EncodingAccepted.f2Count a
  | .f2Bytes a => EncodingAccepted.f2Bytes a
  | .f2Shift a amount => EncodingAccepted.f2Shift a amount
  | .f2Indices a => EncodingAccepted.f2Indices a
  | .pkNew d n => EncodingAccepted.pkNew d n
  | .pkFrom d words => EncodingAccepted.pkFrom d words
  | .pkBitAt a idx => EncodingAccepted.pkBitAt a idx
  | .pkSetBit a v idx => EncodingAccepted.pkSetBit a v idx
  | .pkLen a => EncodingAccepted.pkLen a
  | .pkCount a => EncodingAccepted.pkCount a
  | .flNew d n => EncodingAccepted.flNew d n
  | .flFrom d words => EncodingAccepted.flFrom d words
  | .flBitAt a idx => EncodingAccepted.flBitAt a idx
  | .flSetBit a v idx => EncodingAccepted.flSetBit a v idx
  | .flLen a => EncodingAccepted.flLen a
  | .flCount a => EncodingAccepted.flCount a
  | .flBytes a => EncodingAccepted.flBytes a
  | .flContains a b => EncodingAccepted.flContains a b
  | .flOverlaps a b => EncodingAccepted.flOverlaps a b
  | .flClone d a => EncodingAccepted.flClone d a
  | .flOr d a b => EncodingAccepted.flOr d a b
  | .flAnd d a b => EncodingAccepted.flAnd d a b
  | .flXor d a b => EncodingAccepted.flXor d a b
  | .flNot d a => EncodingAccepted.flNot d a
  | .flOrNa d a b => EncodingAccepted.flOrNa d a b
  | .flAndNa d a b => EncodingAccepted.flAndNa d a b
  | .flXorNa d a b => EncodingAccepted.flXorNa d a b
  | .flNotNa d a => EncodingAccepted.flNotNa d a
  | .flIndices a => EncodingAccepted.flIndices a
  | .flIndicesNa a cap => EncodingAccepted.flIndicesNa a cap

/-- The row of a command's opcode builds the command from its own header and operand words: the fields read back are
those the header was made of, and an F2.FROM payload is unpacked by its count. -/
theorem build_encoded {i : Instr} {r : Row} (hw : i.wf = true) (hr : rowOf (opOf (header i)) = some r) :
    r.build (fieldsOf (header i) (operandWords i)) = i := by
  cases i <;> rw [header, opOf_headerWord] at hr <;> obtain rfl := Option.some.inj hr
  case f2From d bytes =>
    have hlen : bytes.length < 2 ^ 64 := by simpa [Instr.wf] using hw
    have hcount : (BitVec.ofNat 64 bytes.length).toNat = bytes.length := by
      rw [BitVec.toNat_ofNat, Nat.mod_eq_of_lt hlen]
    simp only [fieldsOf, header, operandWords, dOf_headerWord, List.headD_cons, List.drop_succ_cons, List.drop_zero,
      hcount, take_bytesOfWords_packBytes]
  all_goals simp [fieldsOf, header, operandWords]

/-- Settles O1: the encoding is accepted, and the row it is accepted by builds the command. -/
theorem decodeEncodeRoundTrip : Obligations.DecodeEncodeRoundTrip := by
  intro i hw
  obtain ⟨r, hr, hlegal, hlen⟩ := encodingAccepted i hw
  rw [encode, decode_of_requiredLength_eq hr hlegal hlen, build_encoded hw hr]

/-! ### The required length (R77) -/

/-- The operand words are as many as the format asks for (R77), the count word among them. -/
def RightLength (format : Format) (ops : List Word) : Prop :=
  match format with
  | .h => ops.length = 0
  | .hi => ops.length = 1
  | .hpw => 1 ≤ ops.length ∧ ops.length = 1 + (ops.headD 0).toNat
  | .hpb => 1 ≤ ops.length ∧ ops.length = 1 + ((ops.headD 0).toNat + 7) / 8

theorem requiredLength_eq_iff (format : Format) (ops : List Word) :
    requiredLength format ops = some (1 + ops.length) ↔ RightLength format ops := by
  cases format with
  | h | hi => simp only [requiredLength, RightLength, Option.some.injEq]; omega
  | hpw | hpb =>
    cases ops with
    | nil => simp [requiredLength, RightLength]
    | cons count words =>
      simp only [requiredLength, RightLength, ceilDiv8_eq, Option.some.injEq, List.headD_cons, List.length_cons]
      omega

/-! ### The round trip from words (R71, R72, R75, R79) -/

/-- The operand words of the command a row of this format builds from `cmd[1]` and `cmd[2..]`. -/
def builtOperands (imm : Word) (payload : List Word) : Format → List Word
  | .h => []
  | .hi => [imm]
  | .hpw => BitVec.ofNat 64 payload.length :: payload
  | .hpb => BitVec.ofNat 64 ((bytesOfWords payload).take imm.toNat).length ::
      packBytes ((bytesOfWords payload).take imm.toNat)

/-- Row by row: the operand words of the command a row builds. -/
theorem operandWords_build {r : Row} (hr : r ∈ opcodeTable) (f : Fields) :
    operandWords (r.build f) = builtOperands f.imm f.payload r.format := by
  revert r
  simp only [opcodeTable, rowsSystem, rowsFixed2, rowsPacked, rowsFullAccess, rowsFullAlgebra, rowsFullEnumeration,
    List.forall_mem_append, List.forall_mem_cons, List.not_mem_nil, false_imp_iff, implies_true, and_true]
  and_intros <;> rfl

/-- Row by row: a command whose payload count fits the count word is well-formed. -/
theorem wf_build {r : Row} (hr : r ∈ opcodeTable) (f : Fields) (hp : f.payload.length < 2 ^ 64) :
    (r.build f).wf = true := by
  revert r
  have hw : decide (f.payload.length < 2 ^ 64) = true := decide_eq_true hp
  have hb : decide (((bytesOfWords f.payload).take f.imm.toNat).length < 2 ^ 64) = true :=
    decide_eq_true (Nat.lt_of_le_of_lt (List.length_take_le _ _) f.imm.isLt)
  simp only [opcodeTable, rowsSystem, rowsFixed2, rowsPacked, rowsFullAccess, rowsFullAlgebra, rowsFullEnumeration,
    List.forall_mem_append, List.forall_mem_cons, List.not_mem_nil, false_imp_iff, implies_true, and_true, Instr.wf,
    hw, hb]

/-- Row by row: F2.FROM is what the row of format HPB builds, and no other. -/
theorem build_eq_f2From_iff {r : Row} (hr : r ∈ opcodeTable) (f : Fields) (d : SlotRef) (bytes : List Byte) :
    r.build f = .f2From d bytes ↔
      r.format = .hpb ∧ f.d = d ∧ (bytesOfWords f.payload).take f.imm.toNat = bytes := by
  revert r
  simp [opcodeTable, rowsSystem, rowsFixed2, rowsPacked, rowsFullAccess, rowsFullAlgebra, rowsFullEnumeration]

section
variable {format : Format} {ops : List Word} (h : RightLength format ops)
include h

/-- The right length leaves as many payload words as a count word can count. -/
theorem payload_length_lt : (ops.drop 1).length < 2 ^ 64 := by
  have hcount := (ops.headD 0).isLt
  rw [List.length_drop]
  cases format <;> simp only [RightLength] at h <;> omega

/-- An HPB payload has room for the bytes counted. -/
theorem count_le_payload (hb : format = .hpb) : (ops.headD 0).toNat ≤ 8 * (ops.drop 1).length := by
  subst hb
  obtain ⟨-, hlen⟩ := h
  rw [List.length_drop]
  omega

/-- At the right length the operand words of the command built are those it was built from, padding apart. -/
theorem builtOperands_eq (hb : format ≠ .hpb) : builtOperands (ops.headD 0) (ops.drop 1) format = ops := by
  cases format with
  | h => exact (List.length_eq_zero_iff.1 h).symm
  | hi =>
    obtain ⟨imm, rfl⟩ := List.length_eq_one_iff.1 h
    rfl
  | hpw =>
    obtain ⟨hpos, hlen⟩ := h
    obtain ⟨count, words, rfl⟩ := List.exists_cons_of_length_pos hpos
    have hcount : words.length = count.toNat := by simpa [Nat.add_comm] using hlen
    simp [builtOperands, hcount]
  | hpb => exact absurd rfl hb

theorem builtOperands_eq_hpb (hb : format = .hpb) :
    builtOperands (ops.headD 0) (ops.drop 1) format =
      ops.headD 0 :: packBytes ((bytesOfWords (ops.drop 1)).take (ops.headD 0).toNat) := by
  have hle := count_le_payload h hb
  subst hb
  rw [builtOperands, take_bytesOfWords_length hle, BitVec.ofNat_toNat, BitVec.setWidth_eq]

theorem builtOperands_length : (builtOperands (ops.headD 0) (ops.drop 1) format).length = ops.length := by
  by_cases hb : format = .hpb
  · rw [builtOperands_eq_hpb h hb, List.length_cons, packBytes_length_eq,
      take_bytesOfWords_length (count_le_payload h hb)]
    subst hb
    obtain ⟨hpos, hlen⟩ := h
    omega
  · rw [builtOperands_eq h hb]

end

/-- Settles O2: the header is the one decoded, and the operand words are those of the row's format. -/
theorem encodeDecodeGivesWords : Obligations.EncodeDecodeGivesWords := by
  intro cmd i hd
  cases cmd with
  | nil => cases hd
  | cons h ops =>
    have hheader : header i = h := header_of_decode hd
    obtain ⟨r, hr, -, hlen, rfl⟩ := decode_eq_ok hd
    have hright := (requiredLength_eq_iff _ _).1 hlen
    have hmem : r ∈ opcodeTable := List.mem_of_find?_eq_some hr
    have hencode : encode (r.build (fieldsOf h ops)) =
        h :: builtOperands (ops.headD 0) (ops.drop 1) r.format := by
      rw [encode, hheader, operandWords_build hmem]
      rfl
    rw [hencode]
    refine ⟨wf_build hmem _ (payload_length_lt hright), hheader, ?_, fun hne => ?_, fun d bytes hfrom => ?_⟩
    · rw [List.length_cons, List.length_cons, builtOperands_length hright]
    · have hb : r.format ≠ .hpb := fun hb => hne _ _ ((build_eq_f2From_iff hmem _ _ _).2 ⟨hb, rfl, rfl⟩)
      rw [builtOperands_eq hright hb]
    · obtain ⟨hb, -, rfl⟩ := (build_eq_f2From_iff hmem _ _ _).1 hfrom
      obtain ⟨hpos, -⟩ : RightLength .hpb ops := hb ▸ hright
      obtain ⟨count, words, rfl⟩ := List.exists_cons_of_length_pos hpos
      rw [builtOperands_eq_hpb hright hb]
      exact ⟨rfl, fun j hj => (take_bytesOfWords_getD _ (Nat.lt_of_lt_of_le hj (List.length_take_le _ _))).symm⟩

/-! ### Commands that fail checks 1 to 3 (R72, R77, R78, R252) -/

/-- A running block answers a command that does not decode with its fault: the record and the one-word response. -/
theorem step_of_decode_error {s : State} {cmd : List Word} {rest : List PortEvent} {c : FaultCode}
    (hf : s.fault = false) (hin : s.inbox = .command cmd :: rest) (hd : decode cmd = .error c) :
    step s = .next { s with
      inbox := rest, fault := true, fcode := faultNumber c, fhdr := cmd.headD 0
      responses := s.responses ++ [[BitVec.ofNat 64 ((faultNumber c).toNat + (cmd.headD 0).toNat % 256 * 256)]] } := by
  rw [step_command hin, hd, ← rsp_opOf]
  simp only [rejectCommand, answer, hf, Bool.false_eq_true, if_false]
  rfl

/-- The opcodes of R78 are those of no row of R76: the ranges leave out the 36 opcodes and nothing else. -/
theorem rowOf_eq_none_iff (op : Byte) : rowOf op = none ↔ illegalOp op.toNat = true := by
  have hlt := op.isLt
  have hne (c : Byte) : c ≠ op ↔ c.toNat ≠ op.toNat := not_congr BitVec.toNat_inj.symm
  simp only [rowOf, List.find?_eq_none, beq_iff_eq, hne, opcodeTable, rowsSystem, rowsFixed2, rowsPacked,
    rowsFullAccess, rowsFullAlgebra, rowsFullEnumeration, List.forall_mem_append, List.forall_mem_cons,
    List.not_mem_nil, false_imp_iff, implies_true, and_true, BitVec.reduceToNat, illegalOp, Bool.or_eq_true,
    Bool.and_eq_true, decide_eq_true_eq]
  omega

/-- Settles O4: an opcode of R78 has no row, and check 1 refuses its commands. -/
theorem illegalOpcodesFault : Obligations.IllegalOpcodesFault := by
  refine ⟨rowOf_eq_none_iff, fun s h ops rest hf hin hop => ?_⟩
  have hrow : rowOf (opOf h) = none := (rowOf_eq_none_iff _).2 (by rw [opOf_toNat]; exact hop)
  exact step_of_decode_error hf hin (decode_of_no_row hrow)

/-- A legal header as arithmetic on its value: RSV and every field the row does not use are 0 (R72). -/
theorem headerLegal_iff (r : Row) (h : Word) :
    headerLegal r h = true ↔ h.toNat / 2 ^ 33 = 0 ∧ (Field.d ∈ r.fields ∨ h.toNat / 2 ^ 8 % 256 = 0) ∧
      (Field.a ∈ r.fields ∨ h.toNat / 2 ^ 16 % 256 = 0) ∧ (Field.b ∈ r.fields ∨ h.toNat / 2 ^ 24 % 256 = 0) ∧
      (Field.v ∈ r.fields ∨ h.toNat / 2 ^ 32 % 2 = 0) := by
  have hzero {n : Nat} (x : BitVec n) : x = 0 ↔ x.toNat = 0 := BitVec.toNat_inj.symm
  have hv : vOf h = false ↔ h.toNat / 2 ^ 32 % 2 = 0 := by
    rw [vOf_eq, decide_eq_false_iff_not]
    omega
  simp only [headerLegal, Bool.and_eq_true, Bool.or_eq_true, beq_iff_eq, Bool.not_eq_true', List.contains_iff_mem,
    hzero, rsvOf_toNat, dOf_toNat, aOf_toNat, bOf_toNat, hv, and_assoc]
  rfl

/-- Settles O5: each nonzero part is one that a legal header has 0. -/
theorem unusedFieldsMustBeZero : Obligations.UnusedFieldsMustBeZero := by
  intro s h ops rest r hf hin hr hbad
  have hillegal : headerLegal r h = false := by
    rw [← Bool.not_eq_true, headerLegal_iff]
    tauto
  exact step_of_decode_error hf hin (decode_of_headerLegal_eq_false hr hillegal)

/-- Settles O6: check 3 compares the word count with the required one, over the naturals. -/
theorem wrongLengthFaults : Obligations.WrongLengthFaults := by
  intro s h ops rest r hf hin hr hlegal right
  have hright : right ↔ RightLength r.format ops := Iff.rfl
  rw [hright, ← requiredLength_eq_iff]
  exact ⟨fun hn => step_of_decode_error hf hin (decode_of_requiredLength_ne hr hlegal hn),
    fun hn => ⟨_, decode_of_requiredLength_eq hr hlegal hn⟩⟩

/-! ### Samples, and the step on what decodes (R70, R71, R76, R85) -/

/-- Settles O3, by running the decoder on the seven word lists. -/
theorem sampleWordsDecode : Obligations.SampleWordsDecode := by
  unfold Obligations.SampleWordsDecode
  and_intros <;> decide

/-- Settles O7, by what a step on a pending command is. -/
theorem stepRunsDecodedCommand : Obligations.StepRunsDecodedCommand := by
  intro s cmd rest i hin hd
  rw [step_command hin, hd]

/-- Settles O8, by what a step with nothing pending is. -/
theorem stepWaitsForHost : Obligations.StepWaitsForHost := fun _ => step_idle

/-! ### One response per command (R84) -/

/-- However a command ends, it sends one nonempty response. -/
theorem exec_responses {i : Instr} {s t : State} (h : exec i s = .next t) :
    ∃ r, t.responses = s.responses ++ [r] ∧ r ≠ [] := by
  rcases exec_outcome h with rfl | ⟨c, rfl⟩ | he
  · exact ⟨_, answerHalted_responses s _, List.cons_ne_nil _ _⟩
  · exact ⟨_, takeFault_responses s c _, List.cons_ne_nil _ _⟩
  · obtain ⟨ws, hws⟩ := he.responses
    exact ⟨_, hws, List.cons_ne_nil _ _⟩

theorem rejectCommand_responses (s : State) (cmd : List Word) (c : FaultCode) :
    ∃ r, (rejectCommand s cmd c).responses = s.responses ++ [r] ∧ r ≠ [] := by
  rcases rejectCommand_cases s cmd c with h | h <;> rw [h]
  · exact ⟨_, answerHalted_responses s _, List.cons_ne_nil _ _⟩
  · exact ⟨_, takeFault_responses s c _, List.cons_ne_nil _ _⟩

theorem rejectCommand_inbox (s : State) (cmd : List Word) (c : FaultCode) :
    (rejectCommand s cmd c).inbox = s.inbox := by
  rcases rejectCommand_cases s cmd c with h | h <;> rw [h] <;> rfl

/-- Settles O15: a command that decodes is answered by its meaning, every other by its rejection. -/
theorem oneResponsePerCommand : Obligations.OneResponsePerCommand := by
  intro s cmd rest hin
  rw [step_command hin]
  cases decode cmd with
  | error c =>
    obtain ⟨r, hr, hne⟩ := rejectCommand_responses { s with inbox := rest } cmd c
    exact ⟨_, r, rfl, hr, hne, rejectCommand_inbox _ cmd c⟩
  | ok i =>
    obtain ⟨t, ht⟩ := exec_total i { s with inbox := rest }
    obtain ⟨r, hr, hne⟩ := exec_responses ht
    exact ⟨t, r, ht, hr, hne, exec_inbox ht⟩

/-! ### The shape of a response (R82, R83) -/

theorem hasShape_bytes (hdr : Word) {bytes : List Byte} (h : bytes.length < 2 ^ 64) :
    hasShape hdr .bytes (hdr :: BitVec.ofNat 64 bytes.length :: packBytes bytes) := by
  have hcount : (BitVec.ofNat 64 bytes.length).toNat = bytes.length := by
    rw [BitVec.toNat_ofNat, Nat.mod_eq_of_lt h]
  refine ⟨_, _, rfl, ?_, fun j hj => ?_⟩
  · rw [hcount, packBytes_length_eq]
  · rw [byteOf_packBytes, List.getD_eq_default _ _ (hcount ▸ hj)]

theorem hasShape_indices (hdr : Word) {xs : List Word} (h : xs.length < 2 ^ 64) :
    hasShape hdr .indices (hdr :: BitVec.ofNat 64 xs.length :: xs) := by
  refine ⟨_, _, rfl, ?_⟩
  rw [BitVec.toNat_ofNat, Nat.mod_eq_of_lt h]

theorem fixed2Bytes_length_le (bytes : List Byte) : (fixed2Bytes bytes).length ≤ 1 := by
  cases bytes <;> simp [fixed2Bytes]

theorem fixed2Indices_length_le (bytes : List Byte) : (fixed2Indices bytes).length ≤ 2 := by
  rw [fixed2Indices_eq_filter]
  exact List.length_filter_le _ _

/-- The enumeration has no more indices than there are bits. -/
theorem enumerate_length_le (cap : Option Nat) (words : List Word) :
    (enumerate cap words).length ≤ 64 * words.length := by
  have hall : ((setIndices words).map (BitVec.ofNat 64)).length ≤ 64 * words.length := by
    rw [List.length_map]
    exact Nat.le_trans (List.length_filter_le _ _) (Nat.le_of_eq List.length_range)
  rw [enumerate_eq]
  cases cap with
  | none => exact hall
  | some c => exact Nat.le_trans (List.length_take_le' _ _) hall

/-- A word list of a well-formed block has fewer than 2^64 bits (R6). -/
theorem wordsAt_bits_lt {s : State} (hs : Inv s) (r : SlotRef) : 64 * (wordsAt s r).length < 2 ^ 64 := by
  have hle := wordsAt_length_le hs r
  obtain ⟨hmax, -, -⟩ := hs.params
  omega

theorem serialize_wordsAt_length_lt {s : State} (hs : Inv s) (r : SlotRef) :
    (serialize (wordsAt s r)).length < 2 ^ 64 := by
  have hle := serialize_length_le (wordsAt s r)
  have hlt := wordsAt_bits_lt hs r
  omega

theorem enumerate_wordsAt_length_lt {s : State} (hs : Inv s) (cap : Option Nat) (r : SlotRef) :
    (enumerate cap (wordsAt s r)).length < 2 ^ 64 :=
  Nat.lt_of_le_of_lt (enumerate_length_le cap _) (wordsAt_bits_lt hs r)

/-- The one response `t` has more than `s` has the shape that the row of the command's opcode names. -/
def AnswersInShape (i : Instr) (s t : State) : Prop :=
  ∃ r row, rowOf (opOf (header i)) = some row ∧ t.responses = s.responses ++ [r] ∧
    hasShape (BitVec.ofNat 64 ((opOf (header i)).toNat * 256)) row.response r

section
variable {i : Instr} {s t : State} {op : Byte} {row : Row} {r : List Word}

theorem answersInShape (hop : opOf (header i) = op) (hrow : rowOf op = some row)
    (hr : t.responses = s.responses ++ [r]) (hshape : hasShape (rsp statusOk op) row.response r) :
    AnswersInShape i s t := by
  subst hop
  have hhdr : rsp statusOk (opOf (header i)) = BitVec.ofNat 64 ((opOf (header i)).toNat * 256) := by
    rw [rsp, statusOk]
    exact congrArg (BitVec.ofNat 64) (Nat.zero_add _)
  exact ⟨r, row, hrow, hr, hhdr ▸ hshape⟩

/-- A command other than SYS.STATUS that ends without a fault answers what it answers after passing its checks. -/
theorem perform_answersInShape {checks : List (Option FaultCode)} {done : State}
    (h : perform i s checks done = .next t) (hf : t.fault = false) (hop : opOf (header i) = op)
    (hrow : rowOf op = some row) (hr : done.responses = s.responses ++ [r])
    (hshape : hasShape (rsp statusOk op) row.response r) : AnswersInShape i s t := by
  obtain ⟨-, -, rfl⟩ := perform_completed h hf
  exact answersInShape hop hrow hr hshape

end

/-- Command by command: the shape its meaning responds in is its row's, and what it counts fits the count word. -/
theorem exec_answersInShape {i : Instr} {s t : State} (hs : Inv s) (h : exec i s = .next t) (hf : t.fault = false) :
    AnswersInShape i s t := by
  cases i with
  | sysStatus =>
    rw [exec_sysStatus, Host.Outcome.next.injEq] at h
    subst h
    exact answersInShape (opOf_headerWord ..) rfl rfl ⟨_, _, rfl⟩
  | f2New | f2From | f2SetBit | f2Shift | pkNew | pkFrom | flNew | flFrom | flClone | flOr | flAnd | flXor | flNot
  | flOrNa | flAndNa | flXorNa | flNotNa =>
    exact perform_answersInShape h hf (opOf_headerWord ..) rfl rfl rfl
  | pkSetBit | flSetBit =>
    refine perform_answersInShape h hf (opOf_headerWord ..) rfl ?_ rfl
    rw [respondNone_responses]
    split <;> rfl
  | f2BitAt | f2Len | f2Count | pkBitAt | pkLen | pkCount | flBitAt | flLen | flCount | flContains | flOverlaps =>
    exact perform_answersInShape h hf (opOf_headerWord ..) rfl rfl ⟨_, rfl⟩
  | f2Bytes a =>
    have hle := fixed2Bytes_length_le (bytesAt s a)
    exact perform_answersInShape h hf (opOf_headerWord ..) rfl rfl (hasShape_bytes _ (by omega))
  | f2Indices a =>
    have hle := fixed2Indices_length_le (bytesAt s a)
    exact perform_answersInShape h hf (opOf_headerWord ..) rfl rfl (hasShape_indices _ (by omega))
  | flBytes a =>
    exact perform_answersInShape h hf (opOf_headerWord ..) rfl rfl
      (hasShape_bytes _ (serialize_wordsAt_length_lt hs a))
  | flIndices a | flIndicesNa a cap =>
    exact perform_answersInShape h hf (opOf_headerWord ..) rfl rfl
      (hasShape_indices _ (enumerate_wordsAt_length_lt hs _ a))

/-- Settles O24: from the shape each of the 36 commands answers in. -/
theorem responsesHaveTheirShape : Obligations.ResponsesHaveTheirShape :=
  fun _ _ _ hs _ h hf => exec_answersInShape hs h hf

end Sys2Proof.Proofs
end

-- The proofs of the family 40_wordstore.md: word counts, single bits, the population count, the lowest set bit.
section
/-! PROOFS. The functions of the word store (spec 40_wordstore.md): the word count (R100), the addressed bit (R101 to R103), the population count (R104) with FL.COUNT, which answers it (43_full_access.md rule R176), and the lowest set bit (R105, R106). -/

namespace Sys2Proof.Proofs

open Sys2Proof Sys2Proof.Machine Sys2Proof.Safety Sys2Proof.Laws

/-! ### The word count (R100) -/

theorem wc_bounds (n : Word) : n.toNat ≤ 64 * wc n ∧ 64 * wc n < n.toNat + 64 ∧ wc n ≤ 2 ^ 58 := by
  have hn : n.toNat < 2 ^ 64 := n.isLt
  rw [wc_eq]
  omega

/-- Settles O51: the bounds are those of a quotient rounded up, the corner cases are computed. -/
theorem wordCountIsExactCeiling : Obligations.WordCountIsExactCeiling :=
  ⟨wc_bounds, rfl, rfl, rfl, rfl, rfl⟩

/-! ### The addressed bit (R101 to R103) -/

/-- `setBit_bitOf` in range: an index whose word exists is below the number of bits (R103). -/
theorem setBit_bitOf_of_wordIndex_lt {ws : List Word} {idx : Word} (h : wordIndex idx < ws.length) (v : Bool)
    (p : Nat) : bitOf (setBit ws idx v) p = if p = idx.toNat then v else bitOf ws p := by
  have hidx : idx.toNat < 64 * ws.length := by
    unfold wordIndex at h
    omega
  simp only [setBit_bitOf, hidx, and_true]

/-- Settles O52: the write is `setBit_bitOf_of_wordIndex_lt`, the read is `getBit_eq_bitOf`. -/
theorem setbitChangesOneBit : Obligations.SetbitChangesOneBit :=
  fun ws idx v h => ⟨setBit_length ws idx v, setBit_bitOf_of_wordIndex_lt h v, getBit_eq_bitOf ws idx⟩

/-! ### The population count (R104, R176) -/

/-- The sum over the words counts the bits of the whole store. -/
theorem popcountWords_eq_countP (ws : List Word) :
    popcountWords ws = (List.range (64 * ws.length)).countP fun p => bitOf ws p := by
  rw [popcountWords_eq_length, setIndices, List.countP_eq_length_filter]

/-- Settles O42: FL.COUNT answers `popcountWords` of the slot's words. -/
theorem flCountResult : Obligations.FlCountResult := by
  intro s a words hf ha
  refine (perform_completes_of_kind hf ha rfl).trans ?_
  rw [wordsAt_of_full (slotAt_of_getElem ha), popcountWords_eq_countP]
  rfl

/-! ### The lowest set bit (R105, R106) -/

/-- The two words have the same bits: bit `ctz w` alone is 1. -/
theorem lowestBit_eq_twoPow {w : Word} (hw : w ≠ 0) : lowestBit w = BitVec.twoPow 64 (ctz w) := by
  obtain ⟨hlt, -, -⟩ := ctz_spec hw
  apply BitVec.eq_of_getLsbD_eq
  intro k _
  rw [lowestBit_getLsbD hw, BitVec.getLsbD_twoPow, decide_eq_true hlt, Bool.true_and, decide_eq_decide, eq_comm]

theorem lowestBit_toNat {w : Word} (hw : w ≠ 0) : (lowestBit w).toNat = 2 ^ ctz w := by
  obtain ⟨hlt, -, -⟩ := ctz_spec hw
  rw [lowestBit_eq_twoPow hw, BitVec.toNat_twoPow_of_lt hlt]

/-- Settles O53: `ctz` is the least set position, and the isolated bit has its weight. -/
theorem lowestBitIsolated : Obligations.LowestBitIsolated := by
  refine ⟨rfl, fun w hw => ?_⟩
  obtain ⟨hlt, hset, hleast⟩ := ctz_spec hw
  exact ⟨hlt, hset, hleast, lowestBit_toNat hw⟩

end Sys2Proof.Proofs
end

-- The proofs of the family 41_fixed2.md: what the FIXED2 commands answer and write, BITAT after SETBIT, and queries.
section
/-! PROOFS. The results of the FIXED2 commands (spec 41_fixed2.md rules R121 to R130); that BITAT reads what SETBIT wrote (R123, R124, R153, R154, R173, R174); and that a query writes no slot (20_memory.md rule R58). -/

namespace Sys2Proof.Proofs

open Sys2Proof Sys2Proof.Machine Sys2Proof.Safety Sys2Proof.Laws

/-! ### F2.NEW and F2.FROM (R121, R122) -/

/-- Settles O26: a slot in range is the only check. -/
theorem f2NewResult : Obligations.F2NewResult := by
  intro s d hf hd
  exact perform_completes hf (by simpa using hd)

/-- Settles O27: a slot in range and the capacity are the only checks. -/
theorem f2FromResult : Obligations.F2FromResult := by
  intro s d bytes hf hd hcap
  exact perform_completes hf (by simpa using ⟨hd, hcap⟩)

/-! ### F2.LEN, F2.COUNT and F2.BYTES (R125 to R127) -/

/-- The ones among the low two bits of a byte are the sum of those bits. -/
theorem popcount_and_three (b : Byte) : popcount (b &&& 0x03) = b.toNat % 2 + b.toNat / 2 % 2 := by
  have hbits : popcount (b &&& 0x03) = (b.getLsbD 0).toNat + (b.getLsbD 1).toNat := by
    simp [popcount, List.range_succ, List.countP_cons, Bool.toNat, Bool.cond_eq_ite, Nat.add_comm]
  rw [hbits, ← BitVec.testBit_toNat, ← BitVec.testBit_toNat, Nat.toNat_testBit, Nat.toNat_testBit]
  simp

theorem packBytes_singleton (b : Byte) : packBytes [b] = [BitVec.ofNat 64 b.toNat] := by
  simp [packBytes, ceilDiv8, wordOfBytes]

/-- Settles O30: F2.COUNT answers `popcount_and_three` of byte 0, F2.BYTES the one word its masked value packs into. -/
theorem f2LenCountBytesResults : Obligations.F2LenCountBytesResults := by
  intro s a bytes hf ha
  have hb := bytesAt_of (slotAt_of_getElem ha)
  refine ⟨perform_completes_of_kind hf ha rfl, (perform_completes_of_kind hf ha rfl).trans ?_,
    (perform_completes_of_kind hf ha rfl).trans ?_⟩
  · rw [hb]
    cases bytes with
    | nil => rfl
    | cons b bs =>
      rw [fixed2Count, popcount_and_three]
      rfl
  · rw [hb]
    cases bytes with
    | nil => rfl
    | cons b bs =>
      rw [fixed2Bytes, respondBytes, packBytes_singleton, and_three_toNat]
      rfl

/-! ### No FIXED2 command faults on contents (R130, R258) -/

/-- Settles O33: the seven commands check that slot A exists and is FIXED2, and nothing else. -/
theorem fixed2NeverFaultsOnContents : Obligations.Fixed2NeverFaultsOnContents := by
  intro s a bytes v x hf ha i hi
  simp only [List.mem_cons, List.not_mem_nil, or_false] at hi
  rcases hi with rfl | rfl | rfl | rfl | rfl | rfl | rfl <;>
    exact ⟨_, perform_completes_of_kind hf ha rfl, hf⟩

/-! ### F2.SETBIT (R124) -/

theorem fixed2SetBit_of_length_ne {bytes : List Byte} (idx : Word) (v : Bool) (h : bytes.length ≠ 1) :
    fixed2SetBit bytes idx v = bytes := by
  match bytes with
  | [] => rfl
  | [_] => exact absurd rfl h
  | _ :: _ :: _ => rfl

/-- In range the write to a one-byte storage differs in the addressed bit alone. -/
theorem fixed2SetBit_singleton (b : Byte) {idx : Word} (v : Bool) (h : idx.toNat < 2) :
    ∃ b', fixed2SetBit [b] idx v = [b'] ∧
      ∀ k, k < 8 → b'.getLsbD k = if k = idx.toNat then v else b.getLsbD k := by
  refine ⟨_, by rw [fixed2SetBit, if_pos h], fun k hk => ?_⟩
  have hmask : (BitVec.ofNat 8 (2 ^ idx.toNat)).getLsbD k = decide (k = idx.toNat) := by
    rw [BitVec.getLsbD_ofNat, Nat.testBit_two_pow, decide_eq_true hk, Bool.true_and, decide_eq_decide, eq_comm]
  have hones : (0xFF : Byte).getLsbD k = true := by
    have hall : (BitVec.allOnes 8).getLsbD k = true := by rw [BitVec.getLsbD_allOnes, decide_eq_true hk]
    exact hall
  cases v with
  | false =>
    rw [if_neg Bool.false_ne_true, BitVec.getLsbD_and, BitVec.getLsbD_xor, hones, hmask]
    by_cases e : k = idx.toNat <;> simp [e]
  | true =>
    rw [if_pos rfl, BitVec.getLsbD_or, hmask]
    by_cases e : k = idx.toNat <;> simp [e]


/-- Settles O29: the storage written is that of `fixed2SetBit`, which is the old one or has one bit written. -/
theorem f2SetBitResult : Obligations.F2SetBitResult := by
  intro s a v idx bytes hf ha
  refine ⟨fixed2SetBit bytes idx v, execF2SetBit_completes v idx hf ha, ?_, ?_⟩
  · rintro (hlen | hidx)
    · exact fixed2SetBit_of_length_ne idx v hlen
    · exact fixed2SetBit_of_le v hidx
  · rintro b rfl hidx
    exact fixed2SetBit_singleton b v hidx

/-! ### BITAT after SETBIT (R123, R124, R153, R154, R173, R174) -/

/-- What slot `a` holds after it was written. -/
theorem getElem?_set_of_getElem? {s : State} {a : SlotRef} {x : Slot} (ha : s.slots[a.toNat]? = some x) (v : Slot) :
    (s.slots.set a.toNat v)[a.toNat]? = some v :=
  List.getElem?_set_self (inRange_of_getElem ha)

theorem slotBit_fixed2SetBit (b : Byte) {idx : Word} (v : Bool) (h : idx.toNat < 2) :
    slotBit (.fixed2 (fixed2SetBit [b] idx v)) idx.toNat = v := by
  obtain ⟨b', hb', hbits⟩ := fixed2SetBit_singleton b v h
  rw [hb', slotBit, hbits _ (by omega), if_pos rfl, decide_eq_true h, Bool.true_and]

/-- The bit a bounded write addressed, read back from the words. -/
theorem bitOf_boundedSetBit_self {len : Nat} {words : List Word} {idx : Word} (v : Bool) (h : idx.toNat < len)
    (hw : idx.toNat < 64 * words.length) : bitOf (boundedSetBit len words idx v) idx.toNat = v := by
  rw [boundedSetBit_bitOf len idx v hw, if_pos ⟨rfl, h⟩]

/-- Settles O55: each SETBIT writes the logical bit that the BITAT of its family reads. -/
theorem bitAtReadsWhatSetBitWrote : Obligations.BitAtReadsWhatSetBitWrote := by
  intro s a idx v hf
  refine ⟨fun b ha hidx => ?_, fun size ws ha hsize hword => ?_, fun ws ha hword => ?_⟩
  · refine ⟨_, _, execF2SetBit_completes v idx hf ha, f2BitAtResult _ a idx _ hf (getElem?_set_of_getElem? ha _), ?_⟩
    rw [slotBit_fixed2SetBit b v hidx]
  · refine ⟨_, _, execPkSetBit_completes v idx hf ha, pkBitAtResult _ a idx size _ hf (getElem?_set_of_getElem? ha _), ?_⟩
    rw [slotBit, bitOf_boundedSetBit_self v hsize hword, decide_eq_true hsize, Bool.true_and]
  · refine ⟨_, _, execFlSetBit_completes v idx hf ha, execFlBitAt_completes idx hf (getElem?_set_of_getElem? ha _), ?_⟩
    rw [slotBit, bitOf_boundedSetBit_self v hword hword, boundedSetBit_length, decide_eq_true hword, Bool.true_and]

/-! ### Queries (R58) -/

theorem exec_slots_of_query {i : Instr} {s t : State} (hq : destination i = none) (h : exec i s = .next t) :
    t.slots = s.slots := by
  rcases exec_slots h with hs | ⟨d, v, hd, -⟩
  · exact hs
  · rw [hq] at hd
    cases hd

/-- Settles O22: a command writes no slot but its destination, and a query has none. -/
theorem queriesHaveNoSideEffects : Obligations.QueriesHaveNoSideEffects :=
  fun _ _ _ hq h => ⟨exec_slots_of_query hq h, exec_record h⟩

end Sys2Proof.Proofs
end

-- The proofs of the family 41_fixed2.md, continued: repeated commands.
section
/-! PROOFS. A command of R58 that completed, issued again, completes with the same slots (spec 20_memory.md rule R58): a query reads the slots it left, a constructor writes the same value, a SETBIT writes the bit that is there, and a FULL command computes the same words, because its sources are what they were or hold a result that the operation absorbs. -/

namespace Sys2Proof.Proofs

open Sys2Proof Sys2Proof.Machine Sys2Proof.Safety Sys2Proof.Laws

/-! ### Values that a repeated write leaves as they are -/

/-- An element written by an idempotent function of its old value is a fixed point of that write. -/
theorem set_getD_of_idempotent {α : Type} {f : α → α} (hf : ∀ x, f (f x) = f x) {xs ys : List α} {n : Nat} {x₀ : α}
    (hy : ys = xs.set n (f (xs.getD n x₀))) : ys.set n (f (ys.getD n x₀)) = ys := by
  subst hy
  rcases Nat.lt_or_ge n xs.length with h | h
  · have hget : (xs.set n (f (xs.getD n x₀))).getD n x₀ = f (xs.getD n x₀) := by simp [h]
    rw [hget, hf, List.set_set]
  · rw [List.set_eq_of_length_le (by simpa using h)]

theorem setBitWord_setBitWord (w idx : Word) (v : Bool) :
    setBitWord (setBitWord w idx v) idx v = setBitWord w idx v := by
  apply BitVec.eq_of_getLsbD_eq
  intro k hk
  rw [setBitWord_getLsbD _ _ _ _ hk, setBitWord_getLsbD _ _ _ _ hk]
  split <;> rfl

theorem setBit_setBit (ws : List Word) (idx : Word) (v : Bool) : setBit (setBit ws idx v) idx v = setBit ws idx v :=
  set_getD_of_idempotent (f := fun w => setBitWord w idx v) (fun w => setBitWord_setBitWord w idx v) rfl

theorem boundedSetBit_boundedSetBit (len : Nat) (words : List Word) (idx : Word) (v : Bool) :
    boundedSetBit len (boundedSetBit len words idx v) idx v = boundedSetBit len words idx v := by
  unfold boundedSetBit
  split
  · exact setBit_setBit words idx v
  · rfl

theorem fixed2SetBit_fixed2SetBit (bytes : List Byte) (idx : Word) (v : Bool) :
    fixed2SetBit (fixed2SetBit bytes idx v) idx v = fixed2SetBit bytes idx v := by
  rcases Nat.lt_or_ge idx.toNat 2 with h | h
  · match bytes with
    | [] | _ :: _ :: _ => rfl
    | [b] =>
      obtain ⟨b', hb', hbits⟩ := fixed2SetBit_singleton b v h
      obtain ⟨b'', hb'', hbits'⟩ := fixed2SetBit_singleton b' v h
      have heq : b'' = b' := by
        apply BitVec.eq_of_getLsbD_eq
        intro k hk
        rw [hbits' k hk, hbits k hk]
        split <;> rfl
      rw [hb', hb'', heq]
  · rw [fixed2SetBit_of_le v h, fixed2SetBit_of_le v h]

/-- A shift by 0 keeps the low two bits. -/
theorem shiftByte_zero (b : Byte) : shiftByte b (0 : Word).toInt = b &&& 0x03 := by
  simp [shiftByte, clampInt]

theorem fixed2Shift_zero_idem (target : ShiftTarget) (bytes : List Byte) :
    fixed2Shift target (fixed2Shift target bytes (0 : Word).toInt) (0 : Word).toInt =
      fixed2Shift target bytes (0 : Word).toInt := by
  have hidem : ∀ b : Byte, shiftByte (shiftByte b (0 : Word).toInt) (0 : Word).toInt = shiftByte b (0 : Word).toInt := by
    intro b
    rw [shiftByte_zero, shiftByte_zero, BitVec.and_assoc, BitVec.and_self]
  have hlen := fixed2Shift_length target bytes (0 : Word).toInt
  rw [fixed2Shift, hlen]
  exact set_getD_of_idempotent (f := fun b => shiftByte b (0 : Word).toInt) hidem rfl

/-- A word-wise operation that absorbs its own result in place of either source, or of both. -/
def Absorbing (f : Word → Word → Word) : Prop :=
  ∀ x y, f (f x y) y = f x y ∧ f x (f x y) = f x y ∧ f (f x y) (f x y) = f x y

theorem or_absorbing : Absorbing fun x y => x ||| y := by
  intro x y
  beta_reduce
  rw [BitVec.or_assoc, BitVec.or_self, ← BitVec.or_assoc, BitVec.or_self, BitVec.or_self]
  exact ⟨rfl, rfl, rfl⟩

theorem and_absorbing : Absorbing fun x y => x &&& y := by
  intro x y
  beta_reduce
  rw [BitVec.and_assoc, BitVec.and_self, ← BitVec.and_assoc, BitVec.and_self, BitVec.and_self]
  exact ⟨rfl, rfl, rfl⟩

theorem zipWith_absorbing {f : Word → Word → Word} (hf : Absorbing f) {xs ys xs' ys' : List Word}
    (hx : xs' = xs ∨ xs' = List.zipWith f xs ys) (hy : ys' = ys ∨ ys' = List.zipWith f xs ys) :
    List.zipWith f xs' ys' = List.zipWith f xs ys := by
  unfold Absorbing at hf
  apply List.ext_getElem?
  intro n
  rcases hx with hx | hx <;> rcases hy with hy | hy <;> rw [hx, hy]
  all_goals
    simp only [List.getElem?_zipWith]
    cases xs[n]? <;> cases ys[n]? <;> simp [hf]

/-! ### A state after a write -/

section
variable {s t : State} {d : SlotRef} {v : Slot} (ht : t.slots = s.slots.set d.toNat v)
include ht

theorem slotAt_after_write_ne {r : SlotRef} (h : d ≠ r) : slotAt t r = slotAt s r := by
  have hset : slotAt t r = slotAt (setSlot s d v) r := by rw [slotAt, ht, slotAt, setSlot_slots]
  rw [hset, slotAt_setSlot_ne v h]

/-- A slot holds what it held or the value written. -/
theorem slotAt_after_write (r : SlotRef) : slotAt t r = slotAt s r ∨ slotAt t r = v := by
  by_cases h : d = r
  · subst h
    rcases Nat.lt_or_ge d.toNat s.slots.length with hd | hd
    · exact .inr (slotAt_of_getElem (by rw [ht, List.getElem?_set_self hd]))
    · exact .inl (by rw [slotAt, ht, List.set_eq_of_length_le hd, slotAt])
  · exact .inl (slotAt_after_write_ne ht h)

end

theorem wordsAt_congr {s t : State} {r : SlotRef} (h : slotAt t r = slotAt s r) : wordsAt t r = wordsAt s r := by
  rw [wordsAt, h, wordsAt]

theorem wordsAt_after_write {s t : State} {d : SlotRef} {words : List Word}
    (ht : t.slots = s.slots.set d.toNat (.full words)) (r : SlotRef) : wordsAt t r = wordsAt s r ∨ wordsAt t r = words :=
  (slotAt_after_write ht r).imp wordsAt_congr wordsAt_of_full

/-! ### A command issued twice -/

section
variable {i : Instr} {s t u : State}

/-- If the second issue passes its checks and its effect keeps the slots and the record, so does the repetition. -/
theorem perform_repeat {checks checks' : List (Option FaultCode)} {done done' : State}
    (h : perform i s checks done = .next t) (hf : t.fault = false) (hu : perform i t checks' done' = .next u)
    (hrep : t = done → (∀ c ∈ checks, c = none) →
      (∀ c ∈ checks', c = none) ∧ done'.slots = t.slots ∧ done'.fault = t.fault) :
    u.slots = t.slots ∧ u.fault = false := by
  obtain ⟨-, hc, ht⟩ := perform_completed h hf
  obtain ⟨hc', hslots, hfault⟩ := hrep ht hc
  rw [perform_completes hf hc', Host.Outcome.next.injEq] at hu
  subst hu
  exact ⟨hslots, hfault.trans hf⟩

/-- A command that writes slot `d` twice with the same value. -/
theorem perform_repeat_write {checks checks' : List (Option FaultCode)} {d : SlotRef} {v v' : Slot} {op : Byte}
    (h : perform i s checks (respondNone (setSlot s d v) op) = .next t) (hf : t.fault = false)
    (hu : perform i t checks' (respondNone (setSlot t d v') op) = .next u)
    (hrep : t.slots = s.slots.set d.toNat v → t.params = s.params → (∀ c ∈ checks, c = none) →
      (∀ c ∈ checks', c = none) ∧ v' = v) :
    u.slots = t.slots ∧ u.fault = false := by
  refine perform_repeat h hf hu fun ht hc => ?_
  have hslots : t.slots = s.slots.set d.toNat v := by rw [ht]; rfl
  obtain ⟨hc', rfl⟩ := hrep hslots (by rw [ht]; rfl) hc
  exact ⟨hc', by rw [respondNone_slots, setSlot_slots, hslots, List.set_set], rfl⟩

/-! ### The commands that rewrite one slot in place (R124, R128, R154, R174) -/

theorem kind_of_perform_completed {checks : List (Option FaultCode)} {a : SlotRef} {k : Kind} {done : State}
    (h : perform i s (checkSlots s [a] :: checkKinds s [(a, k)] :: checks) done = .next t) (hf : t.fault = false) :
    s.fault = false ∧ ∃ v, s.slots[a.toNat]? = some v ∧ kindOf v = some k := by
  obtain ⟨hs, hc, -⟩ := perform_completed h hf
  have hkinds : checkKinds s [(a, k)] = none := hc _ (by simp)
  have hk : kindOf (slotAt s a) = some k := by simpa using hkinds
  have hne : slotAt s a ≠ .empty := by
    intro he
    rw [he] at hk
    cases hk
  exact ⟨hs, _, getElem_of_slotAt rfl hne, hk⟩

/-- A command that writes `w` into slot `a`, and does so again in every state where the slot holds `w`. -/
theorem exec_repeat_inPlace {a : SlotRef} {v w : Slot} {r : List Word} (hs : s.fault = false)
    (ha : s.slots[a.toNat]? = some v)
    (hw : exec i s = .next { s with slots := s.slots.set a.toNat w, responses := s.responses ++ [r] })
    (h : exec i s = .next t) (hu : exec i t = .next u)
    (hfix : t.fault = false → t.params = s.params → t.slots[a.toNat]? = some w →
      exec i t = .next { t with slots := t.slots.set a.toNat w, responses := t.responses ++ [r] }) :
    u.slots = t.slots ∧ u.fault = false := by
  rw [hw, Host.Outcome.next.injEq] at h
  have hf : t.fault = false := by rw [← h, hs]
  have ht : t.slots[a.toNat]? = some w := by rw [← h, getElem?_set_of_getElem? ha w]
  rw [hfix hf (by rw [← h]) ht, Host.Outcome.next.injEq] at hu
  rw [← hu]
  exact ⟨set_self ht, hf⟩

theorem f2SetBit_repeat {a : SlotRef} {v : Bool} {idx : Word} (h : exec (.f2SetBit a v idx) s = .next t)
    (hf : t.fault = false) (hu : exec (.f2SetBit a v idx) t = .next u) : u.slots = t.slots ∧ u.fault = false := by
  obtain ⟨hs, x, ha, hk⟩ := kind_of_perform_completed h hf
  obtain ⟨bytes, rfl⟩ := kindOf_eq_fixed2.1 hk
  refine exec_repeat_inPlace hs ha (execF2SetBit_completes v idx hs ha) h hu fun _ _ hw => ?_
  rw [execF2SetBit_completes v idx hf hw, fixed2SetBit_fixed2SetBit]

theorem f2Shift_zero_repeat {a : SlotRef} (h : exec (.f2Shift a 0) s = .next t) (hf : t.fault = false)
    (hu : exec (.f2Shift a 0) t = .next u) : u.slots = t.slots ∧ u.fault = false := by
  obtain ⟨hs, x, ha, hk⟩ := kind_of_perform_completed h hf
  obtain ⟨bytes, rfl⟩ := kindOf_eq_fixed2.1 hk
  refine exec_repeat_inPlace hs ha (execF2Shift_completes 0 hs ha) h hu fun _ hp hw => ?_
  rw [execF2Shift_completes 0 hf hw, hp, fixed2Shift_zero_idem]

theorem pkSetBit_repeat {a : SlotRef} {v : Bool} {idx : Word} (h : exec (.pkSetBit a v idx) s = .next t)
    (hf : t.fault = false) (hu : exec (.pkSetBit a v idx) t = .next u) : u.slots = t.slots ∧ u.fault = false := by
  obtain ⟨hs, x, ha, hk⟩ := kind_of_perform_completed h hf
  obtain ⟨size, words, rfl⟩ := kindOf_eq_packed.1 hk
  refine exec_repeat_inPlace hs ha (execPkSetBit_completes v idx hs ha) h hu fun _ _ hw => ?_
  rw [execPkSetBit_completes v idx hf hw, boundedSetBit_boundedSetBit]

theorem flSetBit_repeat {a : SlotRef} {v : Bool} {idx : Word} (h : exec (.flSetBit a v idx) s = .next t)
    (hf : t.fault = false) (hu : exec (.flSetBit a v idx) t = .next u) : u.slots = t.slots ∧ u.fault = false := by
  obtain ⟨hs, x, ha, hk⟩ := kind_of_perform_completed h hf
  obtain ⟨words, rfl⟩ := kindOf_eq_full.1 hk
  refine exec_repeat_inPlace hs ha (execFlSetBit_completes v idx hs ha) h hu fun _ _ hw => ?_
  rw [execFlSetBit_completes v idx hf hw, boundedSetBit_length, boundedSetBit_boundedSetBit]

end

/-! ### The FULL commands that read FULL sources and write D (R181, R200 to R209) -/

/-- The checks of such a command: slots `rs` exist, slots `fs` are FULL, the slots of each pair have one length. -/
def fullChecks (rs fs : List SlotRef) (ps : List (SlotRef × SlotRef)) (s : State) : List (Option FaultCode) :=
  checkSlots s rs :: checkKinds s (fs.map fun r => (r, .full)) :: ps.map fun p => checkSameLen s p.1 p.2

theorem fullChecks_pass_iff {rs fs : List SlotRef} {ps : List (SlotRef × SlotRef)} {s : State} :
    (∀ c ∈ fullChecks rs fs ps s, c = none) ↔
      (∀ r ∈ rs, r.toNat < s.slots.length) ∧ (∀ r ∈ fs, kindOf (slotAt s r) = some .full) ∧
        ∀ p ∈ ps, slotLen (slotAt s p.1) = slotLen (slotAt s p.2) := by
  simp only [fullChecks, List.forall_mem_cons, List.forall_mem_map, checkSlots_eq_none, checkKinds_eq_none,
    checkSameLen_eq_none]

/-- A FULL value as long as the compared slots, written into any slot, leaves the checks passed. -/
theorem fullChecks_after_write {rs fs : List SlotRef} {ps : List (SlotRef × SlotRef)} {s t : State} {d : SlotRef}
    {words : List Word} (ht : t.slots = s.slots.set d.toNat (.full words))
    (hlen : ∀ p ∈ ps, slotLen (.full words) = slotLen (slotAt s p.1)) (hc : ∀ c ∈ fullChecks rs fs ps s, c = none) :
    ∀ c ∈ fullChecks rs fs ps t, c = none := by
  obtain ⟨hr, hk, hl⟩ := fullChecks_pass_iff.1 hc
  refine fullChecks_pass_iff.2 ⟨fun r hm => ?_, fun r hm => ?_, fun p hm => ?_⟩
  · rw [ht, List.length_set]
    exact hr r hm
  · rcases slotAt_after_write ht r with e | e <;> rw [e]
    · exact hk r hm
    · rfl
  · have hkeep : ∀ r, slotLen (slotAt s r) = slotLen (slotAt s p.1) → slotLen (slotAt t r) = slotLen (slotAt s p.1) := by
      intro r hr
      rcases slotAt_after_write ht r with e | e <;> rw [e]
      · exact hr
      · exact hlen p hm
    rw [hkeep p.1 rfl, hkeep p.2 (hl p hm).symm]

theorem full_repeat {i : Instr} {s t u : State} {rs fs : List SlotRef} {ps : List (SlotRef × SlotRef)} {d : SlotRef}
    {words words' : List Word} {op : Byte}
    (h : perform i s (fullChecks rs fs ps s) (respondNone (setSlot s d (.full words)) op) = .next t)
    (hf : t.fault = false)
    (hu : perform i t (fullChecks rs fs ps t) (respondNone (setSlot t d (.full words')) op) = .next u)
    (hlen : (∀ c ∈ fullChecks rs fs ps s, c = none) → ∀ p ∈ ps, slotLen (.full words) = slotLen (slotAt s p.1))
    (hwords : t.slots = s.slots.set d.toNat (.full words) → words' = words) :
    u.slots = t.slots ∧ u.fault = false :=
  perform_repeat_write h hf hu fun ht _ hc =>
    ⟨fullChecks_after_write ht (hlen hc) hc, congrArg Slot.full (hwords ht)⟩

section
variable {s t : State} {d a b : SlotRef} {f : Word → Word → Word}

theorem slotLen_of_full (h : kindOf (slotAt s a) = some .full) : slotLen (slotAt s a) = 64 * (wordsAt s a).length := by
  obtain ⟨words, hv⟩ := kindOf_eq_full.1 h
  rw [wordsAt_of_full hv, hv, slotLen]

/-- The word-wise combination of two FULL slots of one length has that length. -/
theorem slotLen_zipWith (f : Word → Word → Word) (ha : kindOf (slotAt s a) = some .full)
    (hb : kindOf (slotAt s b) = some .full) (hab : slotLen (slotAt s a) = slotLen (slotAt s b)) :
    slotLen (.full (List.zipWith f (wordsAt s a) (wordsAt s b))) = slotLen (slotAt s a) := by
  rw [slotLen_of_full ha, slotLen_of_full hb] at hab
  rw [slotLen_of_full ha, slotLen, List.length_zipWith]
  omega

/-- The second issue combines the same words: D is no source, or the operation absorbs its result. -/
theorem zipWith_after_write (hf : Absorbing f ∨ d ≠ a ∧ d ≠ b)
    (ht : t.slots = s.slots.set d.toNat (.full (List.zipWith f (wordsAt s a) (wordsAt s b)))) :
    List.zipWith f (wordsAt t a) (wordsAt t b) = List.zipWith f (wordsAt s a) (wordsAt s b) := by
  rcases hf with hf | ⟨ha, hb⟩
  · exact zipWith_absorbing hf (wordsAt_after_write ht a) (wordsAt_after_write ht b)
  · rw [wordsAt_congr (slotAt_after_write_ne ht ha), wordsAt_congr (slotAt_after_write_ne ht hb)]

/-- The allocating forms compare A with B. -/
theorem zipWith_len_of_checks (hc : ∀ c ∈ fullChecks [a, b, d] [a, b] [(a, b)] s, c = none) :
    ∀ p ∈ [(a, b)], slotLen (.full (List.zipWith f (wordsAt s a) (wordsAt s b))) = slotLen (slotAt s p.1) := by
  obtain ⟨-, hk, hl⟩ := fullChecks_pass_iff.1 hc
  have hab := slotLen_zipWith f (hk a (by simp)) (hk b (by simp)) (hl (a, b) (by simp))
  simpa using hab

/-- The NA forms compare D with A as well. -/
theorem zipWith_len_of_checksNa (hc : ∀ c ∈ fullChecks [a, b, d] [a, b, d] [(a, b), (d, a)] s, c = none) :
    ∀ p ∈ [(a, b), (d, a)], slotLen (.full (List.zipWith f (wordsAt s a) (wordsAt s b))) = slotLen (slotAt s p.1) := by
  obtain ⟨-, hk, hl⟩ := fullChecks_pass_iff.1 hc
  have hab := slotLen_zipWith f (hk a (by simp)) (hk b (by simp)) (hl (a, b) (by simp))
  have hda : slotLen (slotAt s d) = slotLen (slotAt s a) := hl (d, a) (by simp)
  simpa [hda] using hab

/-- FL.NOT.NA compares D with A. -/
theorem map_len_of_checksNa {g : Word → Word} (hc : ∀ c ∈ fullChecks [a, d] [a, d] [(d, a)] s, c = none) :
    ∀ p ∈ [(d, a)], slotLen (.full ((wordsAt s a).map g)) = slotLen (slotAt s p.1) := by
  obtain ⟨-, hk, hl⟩ := fullChecks_pass_iff.1 hc
  have ha := slotLen_of_full (hk a (by simp))
  have hda : slotLen (slotAt s d) = slotLen (slotAt s a) := hl (d, a) (by simp)
  have hmap : slotLen (.full ((wordsAt s a).map g)) = slotLen (slotAt s d) := by
    rw [hda, ha, slotLen, List.length_map]
  simpa using hmap

theorem map_after_write {g : Word → Word} {v : Slot} (hne : d ≠ a) (ht : t.slots = s.slots.set d.toNat v) :
    (wordsAt t a).map g = (wordsAt s a).map g := by
  rw [wordsAt_congr (slotAt_after_write_ne ht hne)]

end

/-! ### Every command of R58 -/

/-- Settles O23. The second issue passes the same checks: a query because the slots are the same, a constructor because
their number and the parameters are, a command in place because its slot keeps its kind, and a FULL command by
`fullChecks_after_write`. What it writes is what the first wrote. -/
theorem repeatedCommandsAreIdempotent : Obligations.RepeatedCommandsAreIdempotent := by
  intro i s t u hi h hf hu
  cases i with
  | sysStatus =>
    rw [exec_sysStatus, Host.Outcome.next.injEq] at hu
    subst hu
    exact ⟨rfl, hf⟩
  | f2BitAt | f2Len | f2Count | f2Bytes | f2Indices | pkBitAt | pkLen | pkCount | flBitAt | flLen | flCount
  | flBytes | flContains | flOverlaps | flIndices | flIndicesNa =>
    refine perform_repeat h hf hu ?_
    rintro rfl hc
    exact ⟨hc, rfl, rfl⟩
  | f2New | f2From | pkNew | pkFrom | flNew | flFrom =>
    refine perform_repeat_write h hf hu fun ht hp hc => ⟨?_, rfl⟩
    simpa [ht, hp] using hc
  | f2SetBit a v idx => exact f2SetBit_repeat h hf hu
  | pkSetBit a v idx => exact pkSetBit_repeat h hf hu
  | flSetBit a v idx => exact flSetBit_repeat h hf hu
  | f2Shift a amount =>
    obtain rfl : amount = 0 := by simpa [idempotent] using hi
    exact f2Shift_zero_repeat h hf hu
  | flClone d a =>
    exact full_repeat (rs := [a, d]) (fs := [a]) (ps := []) h hf hu (fun _ => by simp)
      fun ht => or_self_iff.1 (wordsAt_after_write ht a)
  | flOr d a b =>
    exact full_repeat (rs := [a, b, d]) (fs := [a, b]) (ps := [(a, b)]) h hf hu zipWith_len_of_checks
      (zipWith_after_write (.inl or_absorbing))
  | flAnd d a b =>
    exact full_repeat (rs := [a, b, d]) (fs := [a, b]) (ps := [(a, b)]) h hf hu zipWith_len_of_checks
      (zipWith_after_write (.inl and_absorbing))
  | flXor d a b =>
    have hne : d ≠ a ∧ d ≠ b := by simpa [idempotent] using hi
    exact full_repeat (rs := [a, b, d]) (fs := [a, b]) (ps := [(a, b)]) h hf hu zipWith_len_of_checks
      (zipWith_after_write (.inr hne))
  | flNot d a =>
    have hne : d ≠ a := by simpa [idempotent] using hi
    exact full_repeat (rs := [a, d]) (fs := [a]) (ps := []) h hf hu (fun _ => by simp) (map_after_write hne)
  | flOrNa d a b =>
    exact full_repeat (rs := [a, b, d]) (fs := [a, b, d]) (ps := [(a, b), (d, a)]) h hf hu zipWith_len_of_checksNa
      (zipWith_after_write (.inl or_absorbing))
  | flAndNa d a b =>
    exact full_repeat (rs := [a, b, d]) (fs := [a, b, d]) (ps := [(a, b), (d, a)]) h hf hu zipWith_len_of_checksNa
      (zipWith_after_write (.inl and_absorbing))
  | flXorNa d a b =>
    have hne : d ≠ a ∧ d ≠ b := by simpa [idempotent] using hi
    exact full_repeat (rs := [a, b, d]) (fs := [a, b, d]) (ps := [(a, b), (d, a)]) h hf hu zipWith_len_of_checksNa
      (zipWith_after_write (.inr hne))
  | flNotNa d a =>
    have hne : d ≠ a := by simpa [idempotent] using hi
    exact full_repeat (rs := [a, d]) (fs := [a, d]) (ps := [(d, a)]) h hf hu map_len_of_checksNa (map_after_write hne)

end Sys2Proof.Proofs
end

-- The proofs of the family 42_packed.md: the constructors PK.NEW and PK.FROM.
section
/-! PROOFS. The results of PK.NEW and PK.FROM (spec 42_packed.md rules R151 and R152), and what PK.LEN and PK.COUNT answer of the zero bits PK.NEW made (R155, R156). -/

namespace Sys2Proof.Proofs

open Sys2Proof Sys2Proof.Machine Sys2Proof.Safety Sys2Proof.Laws

/-! ### PK.FROM (R152) -/

/-- Settles O35: a slot in range and the capacity are the only checks. -/
theorem pkFromResult : Obligations.PkFromResult := by
  intro s d words hf hd hcap
  exact perform_completes hf (by simpa using ⟨hd, hcap⟩)

/-! ### PK.NEW (R151) -/

/-- PK.NEW, too, checks only the slot and the capacity; its word count is the ceiling of R151. -/
theorem execPkNew_completes {s : State} {d : SlotRef} {n : Word} (hf : s.fault = false)
    (hd : d.toNat < s.slots.length) (hcap : (n.toNat + 63) / 64 ≤ s.params.maxW) :
    exec (.pkNew d n) s = .next { s with
      slots := s.slots.set d.toNat (.packed n (List.replicate ((n.toNat + 63) / 64) 0))
      responses := s.responses ++ [[0x2000]] } := by
  rw [← wc_eq] at hcap ⊢
  exact perform_completes hf (by simpa using ⟨hd, hcap⟩)

/-- PK.COUNT of zero words is 0, whatever the size. -/
theorem execPkCount_zeros {s : State} {a : SlotRef} {size : Word} {k : Nat} (hf : s.fault = false)
    (ha : s.slots[a.toNat]? = some (.packed size (List.replicate k 0))) :
    exec (.pkCount a) s = .next { s with responses := s.responses ++ [[0x2500, 0]] } := by
  have hcount : ((List.range size.toNat).countP fun p => bitOf (List.replicate k 0) p) = 0 :=
    List.countP_eq_zero.2 fun p _ => by
      rw [bitOf_replicate_zero]
      exact Bool.false_ne_true
  rw [execPkCount_completes hf ha, hcount]
  rfl

/-- Settles O34: the slot written holds zero words with size `n`, and PK.LEN and PK.COUNT read it. -/
theorem pkNewResult : Obligations.PkNewResult := by
  intro s d n hf hd hcap
  have hslot (v : Slot) : (s.slots.set d.toNat v)[d.toNat]? = some v := List.getElem?_set_self hd
  exact ⟨_, execPkNew_completes hf hd hcap, rfl, execPkLen_completes hf (hslot _), execPkCount_zeros hf (hslot _)⟩

end Sys2Proof.Proofs
end

-- The proofs of the family 43_full_access.md: FULL construction, FL.SETBIT, the round trip, the predicates, the laws of enumeration.
section
/-! PROOFS. The results of FL.NEW, FL.FROM, FL.CLONE and FL.SETBIT (spec 43_full_access.md rules R171, R172, R174, R181); the round trip of FL.BYTES (R177, R178); FL.CONTAINS and FL.OVERLAPS over the bits of their sources (R179, R180); and how FL.INDICES, FL.INDICES.NA and FL.COUNT agree (45_full_enumeration.md rules R231 to R233). -/

namespace Sys2Proof.Proofs

open Sys2Proof Sys2Proof.Machine Sys2Proof.Safety Sys2Proof.Laws

/-! ### FL.NEW, FL.FROM and FL.CLONE (R171, R172, R181) -/

theorem execFlNew_completes {s : State} {d : SlotRef} {n : Word} (hf : s.fault = false)
    (hd : d.toNat < s.slots.length) (hn : n.toNat % 64 = 0) (hcap : n.toNat / 64 ≤ s.params.maxW) :
    exec (.flNew d n) s = .next { s with
      slots := s.slots.set d.toNat (.full (List.replicate (n.toNat / 64) 0))
      responses := s.responses ++ [[0x3000]] } :=
  perform_completes hf (by simpa using ⟨hd, hn, hcap⟩)

theorem execFlFrom_completes {s : State} {d : SlotRef} {words : List Word} (hf : s.fault = false)
    (hd : d.toNat < s.slots.length) (hcap : words.length ≤ s.params.maxW) :
    exec (.flFrom d words) s = .next { s with
      slots := s.slots.set d.toNat (.full words), responses := s.responses ++ [[0x3100]] } :=
  perform_completes hf (by simpa using ⟨hd, hcap⟩)

/-- FL.CLONE needs a FULL source and a destination in range, whatever that holds. -/
theorem execFlClone_completes {s : State} {d a : SlotRef} {words : List Word} (hf : s.fault = false)
    (hd : d.toNat < s.slots.length) (ha : s.slots[a.toNat]? = some (.full words)) :
    exec (.flClone d a) s = .next { s with
      slots := s.slots.set d.toNat (.full words), responses := s.responses ++ [[0x3900]] } := by
  have hv := slotAt_of_getElem ha
  refine (perform_completes hf (by simpa [hv] using ⟨inRange_of_getElem ha, hd⟩)).trans ?_
  rw [wordsAt_of_full hv]
  rfl

/-- Settles O39: each constructor passes its checks and writes D. -/
theorem flConstructorResults : Obligations.FlConstructorResults :=
  fun _ _ hf hd =>
    ⟨fun _ hn hcap => execFlNew_completes hf hd hn hcap, fun _ hcap => execFlFrom_completes hf hd hcap,
      fun _ _ ha => execFlClone_completes hf hd ha⟩

/-! ### FL.SETBIT (R174) -/

/-- A write bounded by the number of bits of the words: every position is covered, in range or not. -/
theorem boundedSetBit_bits_bitOf (words : List Word) (idx : Word) (v : Bool) (p : Nat) :
    bitOf (boundedSetBit (64 * words.length) words idx v) p =
      if p = idx.toNat ∧ idx.toNat < 64 * words.length then v else bitOf words p := by
  unfold boundedSetBit
  split
  · exact setBit_bitOf words idx v p
  · next h => rw [if_neg fun hc => h hc.2]

/-- Settles O41: the words written are those of a write bounded by the number of bits. -/
theorem flSetBitResult : Obligations.FlSetBitResult := by
  intro s a v idx words hf ha
  exact ⟨_, execFlSetBit_completes v idx hf ha, boundedSetBit_length _ _ _ _, boundedSetBit_bits_bitOf words idx v⟩

/-! ### The round trip of the serialization (R177, R178) -/

/-- Packing the bytes of words gives the words back (R52, R83). -/
theorem packBytes_bytesOfWords (words : List Word) : packBytes (bytesOfWords words) = words := by
  refine words_ext_bytes ?_ fun j => ?_
  · rw [packBytes_length_eq, bytesOfWords_length]
    omega
  · rw [byteOf_packBytes, bytesOfWords_getD]

/-- Zero-extension restores the bytes that the trimming took away. -/
theorem serialize_append_zeros (words : List Word) :
    serialize words ++ List.replicate (8 * words.length - (serialize words).length) 0 = bytesOfWords words := by
  rw [← bytesOfWords_length]
  exact trimZeros_append_zeros (bytesOfWords words)

/-- Settles O44: the bytes returned, zero-extended, are all bytes of the words, so the decoded list is the slot's. -/
theorem serializationRoundTrips : Obligations.SerializationRoundTrips := by
  intro s a words hf ha
  have hdecode : words =
      packBytes (serialize words ++ List.replicate (8 * words.length - (serialize words).length) 0) := by
    rw [serialize_append_zeros, packBytes_bytesOfWords]
  exact ⟨serialize words, words, execFlBytes_completes hf ha, serialize_length_le words, hdecode, rfl,
    fun _ _ => execFlBytes_completes⟩

/-! ### FL.CONTAINS and FL.OVERLAPS (R179, R180) -/

/-- A property of word pairs that is one of their bits holds of all pairs exactly if it holds of all bits. -/
theorem zip_all_eq_range_all {P : Word × Word → Bool} {f : Bool → Bool → Bool}
    (hP : ∀ x y, P (x, y) = (List.range 64).all fun k => f (x.getLsbD k) (y.getLsbD k)) :
    ∀ {xs ys : List Word}, xs.length = ys.length →
      (xs.zip ys).all P = (List.range (64 * xs.length)).all fun p => f (bitOf xs p) (bitOf ys p)
  | [], [], _ => rfl
  | x :: xs, y :: ys, hl => by
    have ih := zip_all_eq_range_all hP (Nat.succ.inj hl)
    have hfirst : ((List.range 64).all fun p => f (bitOf (x :: xs) p) (bitOf (y :: ys) p)) = P (x, y) := by
      rw [hP, Bool.eq_iff_iff, List.all_eq_true, List.all_eq_true]
      refine forall₂_congr fun p hp => ?_
      rw [bitOf_cons_lt x xs p (List.mem_range.1 hp), bitOf_cons_lt y ys p (List.mem_range.1 hp)]
    have hrest : (fun p => f (bitOf (x :: xs) p) (bitOf (y :: ys) p)) ∘ (64 + ·) =
        fun p => f (bitOf xs p) (bitOf ys p) :=
      funext fun p => by rw [Function.comp, bitOf_cons_add, bitOf_cons_add]
    rw [List.zip_cons_cons, List.all_cons, ih, List.length_cons, Nat.mul_succ, Nat.add_comm, List.range_add,
      List.all_append, List.all_map, hfirst, hrest]

/-- `x = x OR y` says that no bit is set in `y` alone. -/
theorem beq_or_eq_all (x y : Word) :
    (x == (x ||| y)) = (List.range 64).all fun k => !y.getLsbD k || x.getLsbD k := by
  rw [Bool.eq_iff_iff, beq_iff_eq, List.all_eq_true, BitVec.eq_of_getLsbD_eq_iff]
  simp only [BitVec.getLsbD_or, List.mem_range]
  refine forall₂_congr fun k _ => ?_
  cases x.getLsbD k <;> cases y.getLsbD k <;> decide

/-- `x AND y = 0` says that no bit is set in both. -/
theorem and_beq_zero_eq_all (x y : Word) :
    (x &&& y == 0) = (List.range 64).all fun k => !(x.getLsbD k && y.getLsbD k) := by
  rw [Bool.eq_iff_iff, beq_iff_eq, List.all_eq_true, BitVec.eq_of_getLsbD_eq_iff]
  simp only [BitVec.getLsbD_and, BitVec.ofNat_eq_ofNat, BitVec.getLsbD_zero, List.mem_range, Bool.not_eq_true']

/-- The word-wise subset test of R179 over the bits. -/
theorem zip_all_contains {wa wb : List Word} (hl : wa.length = wb.length) :
    ((wa.zip wb).all fun p => p.1 == (p.1 ||| p.2)) =
      (List.range (64 * wa.length)).all fun p => !bitOf wb p || bitOf wa p :=
  zip_all_eq_range_all (f := fun x y => !y || x) beq_or_eq_all hl

/-- The word-wise intersection test of R180 over the bits: its negation is a property of all pairs. -/
theorem zip_any_overlaps {wa wb : List Word} (hl : wa.length = wb.length) :
    ((wa.zip wb).any fun p => (p.1 &&& p.2) != 0) =
      (List.range (64 * wa.length)).any fun p => bitOf wa p && bitOf wb p := by
  have hall : ((wa.zip wb).all fun p => p.1 &&& p.2 == 0) =
      (List.range (64 * wa.length)).all fun p => !(bitOf wa p && bitOf wb p) :=
    zip_all_eq_range_all (f := fun x y => !(x && y)) and_beq_zero_eq_all hl
  rw [← Bool.not_inj_iff, List.not_any_eq_all_not, List.not_any_eq_all_not, ← hall]
  simp only [bne, Bool.not_not]

/-- The empty case that R180 names is no special case. -/
theorem ite_length_zip_any {xs ys : List Word} (P : Word × Word → Bool) :
    (if xs.length = 0 then false else (xs.zip ys).any P) = (xs.zip ys).any P := by
  cases xs <;> rfl

/-- Two FULL slots of one length pass the checks that FL.CONTAINS and FL.OVERLAPS make. -/
theorem fullPair_checks {s : State} {a b : SlotRef} {wa wb : List Word} (ha : s.slots[a.toNat]? = some (.full wa))
    (hb : s.slots[b.toNat]? = some (.full wb)) (hl : wa.length = wb.length) :
    ∀ c ∈ fullChecks [a, b] [a, b] [(a, b)] s, c = none := by
  refine fullChecks_pass_iff.2 ?_
  simpa [slotAt_of_getElem ha, slotAt_of_getElem hb, slotLen, hl] using
    ⟨inRange_of_getElem ha, inRange_of_getElem hb⟩

/-- Settles O45: both tests are word by word what the statement says bit by bit. -/
theorem flPredicateResults : Obligations.FlPredicateResults := by
  intro s a b wa wb hf ha hb hl
  have hchecks := fullPair_checks ha hb hl
  refine ⟨(perform_completes hf hchecks).trans ?_, (perform_completes hf hchecks).trans ?_⟩
  · rw [wordsAt_of_full (slotAt_of_getElem ha), wordsAt_of_full (slotAt_of_getElem hb), zip_all_contains hl]
    rfl
  · rw [wordsAt_of_full (slotAt_of_getElem ha), wordsAt_of_full (slotAt_of_getElem hb), ite_length_zip_any,
      zip_any_overlaps hl]
    rfl

/-! ### FL.INDICES, FL.INDICES.NA and FL.COUNT (R176, R231 to R233) -/

/-- The set positions of a word store as the u64s that a response holds. -/
def indexWords (words : List Word) : List Word := (setIndices words).map (BitVec.ofNat 64)

@[simp] theorem indexWords_length (words : List Word) : (indexWords words).length = (setIndices words).length :=
  List.length_map _

/-- FL.INDICES on a FULL slot of a running block answers every set position. -/
theorem execFlIndices_completes {s : State} {a : SlotRef} {words : List Word} (hf : s.fault = false)
    (ha : s.slots[a.toNat]? = some (.full words)) :
    exec (.flIndices a) s = .next { s with
      responses := s.responses ++ [0x5000 :: BitVec.ofNat 64 (indexWords words).length :: indexWords words] } := by
  refine (perform_completes_of_kind hf ha rfl).trans ?_
  rw [wordsAt_of_full (slotAt_of_getElem ha), enumerate_eq]
  rfl

/-- FL.INDICES.NA answers the first `cap` of them. -/
theorem execFlIndicesNa_completes {s : State} {a : SlotRef} {words : List Word} (cap : Word) (hf : s.fault = false)
    (ha : s.slots[a.toNat]? = some (.full words)) :
    exec (.flIndicesNa a cap) s = .next { s with
      responses := s.responses ++
        [0x5100 :: BitVec.ofNat 64 ((indexWords words).take cap.toNat).length ::
          (indexWords words).take cap.toNat] } := by
  refine (perform_completes_of_kind hf ha rfl).trans ?_
  rw [wordsAt_of_full (slotAt_of_getElem ha), enumerate_eq]
  rfl

/-- FL.COUNT answers the number of indices. -/
theorem execFlCount_indexWords {s : State} {a : SlotRef} {words : List Word} (hf : s.fault = false)
    (ha : s.slots[a.toNat]? = some (.full words)) :
    exec (.flCount a) s = .next { s with
      responses := s.responses ++ [[0x3500, BitVec.ofNat 64 (indexWords words).length]] } := by
  rw [indexWords_length, ← popcountWords_eq_length, popcountWords_eq_countP]
  exact flCountResult s a words hf ha

theorem indexWords_length_le (words : List Word) : (indexWords words).length ≤ 64 * words.length := by
  have hle := enumerate_length_le none words
  rwa [enumerate_eq] at hle

/-- Positions that fit a u64 ascend as u64s. -/
theorem indexWords_ascending {words : List Word} (h : 64 * words.length < 2 ^ 64) :
    (indexWords words).Pairwise fun x y => x.toNat < y.toNat := by
  have htoNat : ∀ p ∈ setIndices words, (BitVec.ofNat 64 p).toNat = p := fun p hp => by
    have hlt : p < 64 * words.length := List.mem_range.1 (List.mem_of_mem_filter hp)
    rw [BitVec.toNat_ofNat, Nat.mod_eq_of_lt (Nat.lt_trans hlt h)]
  have hasc : (setIndices words).Pairwise (· < ·) := List.pairwise_lt_range.filter _
  refine List.pairwise_map.2 (hasc.imp_of_mem fun {p q} hp hq hlt => ?_)
  rwa [htoNat p hp, htoNat q hq]

/-- Settles O50: below 2^58 words the number of indices fits a u64, and a list holds no more than its length. -/
theorem enumerationLawsHold : Obligations.EnumerationLawsHold := by
  intro s a words hf ha hbound
  have hbits : 64 * words.length < 2 ^ 64 := by omega
  have hcount : (BitVec.ofNat 64 (indexWords words).length).toNat = (indexWords words).length := by
    rw [BitVec.toNat_ofNat, Nat.mod_eq_of_lt (Nat.lt_of_le_of_lt (indexWords_length_le words) hbits)]
  refine ⟨_, _, execFlIndices_completes hf ha, execFlCount_indexWords hf ha, hcount, indexWords_ascending hbits,
    fun cap => ?_⟩
  rw [hcount, execFlIndicesNa_completes cap hf ha, List.length_take, ← List.take_eq_take_min]

end Sys2Proof.Proofs
end

-- The proofs of the family 44_full_algebra.md: the results of both forms of the FULL set algebra, and its laws.
section
/-! PROOFS. The results of FL.OR, FL.AND, FL.XOR, FL.NOT and their non-allocating forms (spec 44_full_algebra.md rules R201 to R209), and the laws of the algebra (R210). A command of either form is `fullChecks` and one write, whose words are a `zipWith` or a `map` of the words read before it. -/

namespace Sys2Proof.Proofs

open Sys2Proof Sys2Proof.Machine Sys2Proof.Safety Sys2Proof.Laws

/-! ### The checks of the algebra (R252) -/

/-- Fewer slots and pairs to check are passed as well. -/
theorem fullChecks_mono {rs rs' fs fs' : List SlotRef} {ps ps' : List (SlotRef × SlotRef)} {s : State}
    (hr : rs' ⊆ rs) (hk : fs' ⊆ fs) (hl : ps' ⊆ ps) (hc : ∀ c ∈ fullChecks rs fs ps s, c = none) :
    ∀ c ∈ fullChecks rs' fs' ps' s, c = none := by
  obtain ⟨hrs, hfs, hps⟩ := fullChecks_pass_iff.1 hc
  exact fullChecks_pass_iff.2 ⟨fun r hm => hrs r (hr hm), fun r hm => hfs r (hk hm), fun p hm => hps p (hl hm)⟩

/-- The checks of a binary operation do not tell A from B. -/
theorem fullChecks_swap {s : State} {d a b : SlotRef} (hc : ∀ c ∈ fullChecks [a, b, d] [a, b] [(a, b)] s, c = none) :
    ∀ c ∈ fullChecks [b, a, d] [b, a] [(b, a)] s, c = none := by
  obtain ⟨hr, hk, hl⟩ := fullChecks_pass_iff.1 hc
  refine fullChecks_pass_iff.2 ⟨fun r hm => hr r (List.Perm.swap a b [d] |>.mem_iff.1 hm),
    fun r hm => hk r (List.Perm.swap a b [] |>.mem_iff.1 hm), ?_⟩
  simpa [eq_comm] using hl

section
variable {s : State} {d a b : SlotRef} {wa wb wd : List Word}

/-- Two FULL slots of one length and any D in range pass the checks of an allocating form. -/
theorem allocating_checks (hd : d.toNat < s.slots.length) (ha : s.slots[a.toNat]? = some (.full wa))
    (hb : s.slots[b.toNat]? = some (.full wb)) (hl : wa.length = wb.length) :
    ∀ c ∈ fullChecks [a, b, d] [a, b] [(a, b)] s, c = none := by
  refine fullChecks_pass_iff.2 ?_
  simpa [slotAt_of_getElem ha, slotAt_of_getElem hb, slotLen, hl] using
    ⟨inRange_of_getElem ha, inRange_of_getElem hb, hd⟩

/-- With D FULL of the same length, those of the non-allocating form pass too. -/
theorem nonAllocating_checks (ha : s.slots[a.toNat]? = some (.full wa)) (hb : s.slots[b.toNat]? = some (.full wb))
    (hd : s.slots[d.toNat]? = some (.full wd)) (hl : wa.length = wb.length) (hld : wd.length = wa.length) :
    ∀ c ∈ fullChecks [a, b, d] [a, b, d] [(a, b), (d, a)] s, c = none := by
  refine fullChecks_pass_iff.2 ?_
  simpa [slotAt_of_getElem ha, slotAt_of_getElem hb, slotAt_of_getElem hd, slotLen, hl, hld] using
    ⟨inRange_of_getElem ha, inRange_of_getElem hb, inRange_of_getElem hd⟩

/-! ### What the commands write (R201 to R209) -/

/-- A binary operation whose checks pass combines the words that A and B held before it. -/
theorem perform_zipWith_completes {i : Instr} {checks : List (Option FaultCode)} {f : Word → Word → Word} {op : Byte}
    (hf : s.fault = false) (ha : s.slots[a.toNat]? = some (.full wa)) (hb : s.slots[b.toNat]? = some (.full wb))
    (hc : ∀ c ∈ checks, c = none) :
    perform i s checks (respondNone (setSlot s d (.full (List.zipWith f (wordsAt s a) (wordsAt s b)))) op) =
      .next { s with
        slots := s.slots.set d.toNat (.full (List.zipWith f wa wb))
        responses := s.responses ++ [[rsp statusOk op]] } := by
  rw [perform_completes hf hc, wordsAt_of_full (slotAt_of_getElem ha), wordsAt_of_full (slotAt_of_getElem hb)]
  rfl

/-- The complement of A, likewise. -/
theorem perform_map_completes {i : Instr} {checks : List (Option FaultCode)} {g : Word → Word} {op : Byte}
    (hf : s.fault = false) (ha : s.slots[a.toNat]? = some (.full wa)) (hc : ∀ c ∈ checks, c = none) :
    perform i s checks (respondNone (setSlot s d (.full ((wordsAt s a).map g))) op) =
      .next { s with
        slots := s.slots.set d.toNat (.full (wa.map g)), responses := s.responses ++ [[rsp statusOk op]] } := by
  rw [perform_completes hf hc, wordsAt_of_full (slotAt_of_getElem ha)]
  rfl

/-- FL.NOT has no second source. -/
theorem execFlNot_completes (hf : s.fault = false) (hd : d.toNat < s.slots.length)
    (ha : s.slots[a.toNat]? = some (.full wa)) :
    exec (.flNot d a) s = .next { s with
      slots := s.slots.set d.toNat (.full (wa.map (~~~ ·))), responses := s.responses ++ [[0x4300]] } :=
  have hc : ∀ c ∈ fullChecks [a, d] [a] [] s, c = none :=
    fullChecks_mono (by simp) (by simp) (by simp) (allocating_checks hd ha ha rfl)
  perform_map_completes hf ha hc

end

/-- Settles O46: the binary commands pass the same checks. -/
theorem flAllocatingAlgebraResults : Obligations.FlAllocatingAlgebraResults := by
  intro s d a b wa wb hf hd ha hb hl
  have hc := allocating_checks hd ha hb hl
  exact ⟨perform_zipWith_completes hf ha hb hc, perform_zipWith_completes hf ha hb hc,
    perform_zipWith_completes hf ha hb hc, execFlNot_completes hf hd ha⟩

/-- Settles O47: the same writes under the checks that D is FULL and as long as A. -/
theorem flNonAllocatingAlgebraResults : Obligations.FlNonAllocatingAlgebraResults := by
  intro s d a b wa wb wd hf ha hb hd hl hld
  have hc := nonAllocating_checks ha hb hd hl hld
  have hcNot : ∀ c ∈ fullChecks [a, d] [a, d] [(d, a)] s, c = none :=
    fullChecks_mono (by simp) (by simp) (by simp) hc
  exact ⟨perform_zipWith_completes hf ha hb hc, perform_zipWith_completes hf ha hb hc,
    perform_zipWith_completes hf ha hb hc, perform_map_completes hf ha hcNot⟩

/-! ### Commands that leave the same slots (R210) -/

section
variable {i j : Instr} {s t u : State} {checks checks' : List (Option FaultCode)} {done done' : State}

/-- A command that is halted or faults leaves the slots as they were. -/
theorem perform_slots_of_not_pass (h : perform i s checks done = .next t)
    (hn : ¬(s.fault = false ∧ ∀ c ∈ checks, c = none)) : t.slots = s.slots := by
  rcases perform_cases h with ⟨-, rfl⟩ | ⟨-, c, -, rfl⟩ | ⟨hf, hc, -⟩
  · exact answerHalted_slots s _
  · exact takeFault_slots s c _
  · exact absurd ⟨hf, hc⟩ hn

/-- Commands that pass their checks in the same states and have the same effect on the slots leave the same slots,
halted and faulting ones among them. -/
theorem perform_slots_eq (h : perform i s checks done = .next t) (h' : perform j s checks' done' = .next u)
    (hc : (∀ c ∈ checks, c = none) ↔ ∀ c ∈ checks', c = none) (hd : done.slots = done'.slots) :
    t.slots = u.slots := by
  by_cases hpass : s.fault = false ∧ ∀ c ∈ checks, c = none
  · obtain ⟨hf, hp⟩ := hpass
    rw [perform_completes hf hp, Host.Outcome.next.injEq] at h
    rw [perform_completes hf (hc.1 hp), Host.Outcome.next.injEq] at h'
    rw [← h, ← h', hd]
  · rw [perform_slots_of_not_pass h hpass, perform_slots_of_not_pass h' (by rwa [← hc])]

/-- Where a command that makes more checks completes, one that writes the same value leaves the same slots. -/
theorem full_slots_eq_of_completed {rs fs fs' : List SlotRef} {ps ps' : List (SlotRef × SlotRef)} {d : SlotRef}
    {v : Slot} {op op' : Byte} (h : perform i s (fullChecks rs fs ps s) (respondNone (setSlot s d v) op) = .next t)
    (h' : perform j s (fullChecks rs fs' ps' s) (respondNone (setSlot s d v) op') = .next u) (hu : u.fault = false)
    (hk : fs ⊆ fs') (hl : ps ⊆ ps') : t.slots = u.slots := by
  obtain ⟨hf, hc, rfl⟩ := perform_completed h' hu
  rw [perform_completes hf (fullChecks_mono (List.Subset.refl rs) hk hl hc), Host.Outcome.next.injEq] at h
  rw [← h, respondNone_slots, respondNone_slots]

/-- The two forms of a binary operation: the non-allocating one checks D as well. -/
theorem binaryForms_slots_eq {d a b : SlotRef} {v : Slot} {op op' : Byte} (hu : u.fault = false)
    (h : perform i s (fullChecks [a, b, d] [a, b] [(a, b)] s) (respondNone (setSlot s d v) op) = .next t)
    (h' : perform j s (fullChecks [a, b, d] [a, b, d] [(a, b), (d, a)] s) (respondNone (setSlot s d v) op') = .next u) :
    t.slots = u.slots :=
  full_slots_eq_of_completed h h' hu (by simp) (by simp)

/-- The two forms of the complement, likewise. -/
theorem notForms_slots_eq {d a : SlotRef} {v : Slot} {op op' : Byte} (hu : u.fault = false)
    (h : perform i s (fullChecks [a, d] [a] [] s) (respondNone (setSlot s d v) op) = .next t)
    (h' : perform j s (fullChecks [a, d] [a, d] [(d, a)] s) (respondNone (setSlot s d v) op') = .next u) :
    t.slots = u.slots :=
  full_slots_eq_of_completed h h' hu (by simp) (by simp)

/-- A commutative operation leaves the same slots with A and B exchanged. -/
theorem zipWith_slots_comm {d a b : SlotRef} {f : Word → Word → Word} {op op' : Byte} (hcomm : ∀ x y, f x y = f y x)
    (h : perform i s (fullChecks [a, b, d] [a, b] [(a, b)] s)
      (respondNone (setSlot s d (.full (List.zipWith f (wordsAt s a) (wordsAt s b)))) op) = .next t)
    (h' : perform j s (fullChecks [b, a, d] [b, a] [(b, a)] s)
      (respondNone (setSlot s d (.full (List.zipWith f (wordsAt s b) (wordsAt s a)))) op') = .next u) :
    t.slots = u.slots := by
  refine perform_slots_eq h h' ⟨fullChecks_swap, fullChecks_swap⟩ ?_
  rw [List.zipWith_comm_of_comm hcomm, respondNone_slots, respondNone_slots]

end

/-! ### A slot with itself (R210) -/

theorem zipWith_and_self (words : List Word) : List.zipWith (· &&& ·) words words = words := by
  simp [List.zipWith_self]

theorem zipWith_xor_self (words : List Word) :
    List.zipWith (· ^^^ ·) words words = List.replicate words.length 0 := by
  simp [List.zipWith_self]

theorem map_not_map_not (words : List Word) : (words.map (~~~ ·)).map (~~~ ·) = words := by
  simp [Function.comp_def]

section
variable {s : State} {d x : SlotRef} {words : List Word}

theorem flAnd_self (hf : s.fault = false) (hd : d.toNat < s.slots.length)
    (hx : s.slots[x.toNat]? = some (.full words)) :
    ∃ t, exec (.flAnd d x x) s = .next t ∧ t.slots[d.toNat]? = some (.full words) := by
  obtain ⟨-, hand, -⟩ := flAllocatingAlgebraResults s d x x words words hf hd hx hx rfl
  exact ⟨_, hand, by rw [zipWith_and_self, List.getElem?_set_self hd]⟩

theorem flXor_self (hf : s.fault = false) (hd : d.toNat < s.slots.length)
    (hx : s.slots[x.toNat]? = some (.full words)) :
    ∃ t, exec (.flXor d x x) s = .next t ∧ t.slots[d.toNat]? = some (.full (List.replicate words.length 0)) := by
  obtain ⟨-, -, hxor, -⟩ := flAllocatingAlgebraResults s d x x words words hf hd hx hx rfl
  exact ⟨_, hxor, by rw [zipWith_xor_self, List.getElem?_set_self hd]⟩

/-- The second FL.NOT reads the result of the first in D. -/
theorem flNot_flNot (hf : s.fault = false) (hd : d.toNat < s.slots.length)
    (hx : s.slots[x.toNat]? = some (.full words)) :
    ∃ t u, exec (.flNot d x) s = .next t ∧ exec (.flNot d d) t = .next u ∧
      u.slots[d.toNat]? = some (.full words) := by
  have hresult (w : List Word) : (s.slots.set d.toNat (.full w))[d.toNat]? = some (.full w) :=
    List.getElem?_set_self hd
  refine ⟨_, _, execFlNot_completes hf hd hx, execFlNot_completes hf ?_ (hresult _), ?_⟩
  · rwa [List.length_set]
  · rw [List.set_set, map_not_map_not, hresult]

end

/-- Settles O48: A and B are exchangeable in the checks and in the operation; X with itself is the law of its words; and
the non-allocating form makes more checks and writes the same words. -/
theorem algebraLawsHold : Obligations.AlgebraLawsHold :=
  ⟨fun _ _ _ _ _ _ =>
      ⟨zipWith_slots_comm BitVec.or_comm, zipWith_slots_comm BitVec.and_comm, zipWith_slots_comm BitVec.xor_comm⟩,
    fun _ _ _ _ hf hd hx => ⟨flAnd_self hf hd hx, flXor_self hf hd hx, flNot_flNot hf hd hx⟩,
    fun _ _ _ _ _ _ hu =>
      ⟨binaryForms_slots_eq hu, binaryForms_slots_eq hu, binaryForms_slots_eq hu, notForms_slots_eq hu⟩⟩

end Sys2Proof.Proofs
end

-- The proof of the family 45_full_enumeration.md: what the two enumeration commands answer.
section
/-! PROOFS. The results of FL.INDICES and FL.INDICES.NA (spec 45_full_enumeration.md rules R230 to R232). That the isolation loop of R230 gives the set positions up to the capacity is `enumerate_eq`, by induction over the words and over the passes on each word (`enumWords_eq`, `enumWord_eq`); what the commands make of it is `execFlIndices_completes` and `execFlIndicesNa_completes`. -/

namespace Sys2Proof.Proofs

open Sys2Proof Sys2Proof.Machine Sys2Proof.Safety Sys2Proof.Laws

/-- The index words as the closed form of R230 lists them: every position below `64 * W` whose bit is 1. -/
theorem indexWords_eq_filter (words : List Word) :
    indexWords words = ((List.range (64 * words.length)).filter fun p => bitOf words p).map (BitVec.ofNat 64) := rfl

/-- Settles O49: both commands complete with the set positions that the loop of R230 gives, FL.INDICES.NA with their
prefix of length `cap`. -/
theorem flIndicesResults : Obligations.FlIndicesResults := by
  intro s a cap words hf ha
  rw [← indexWords_eq_filter]
  exact ⟨execFlIndices_completes hf ha, execFlIndicesNa_completes cap hf ha⟩

end Sys2Proof.Proofs
end

-- The proofs of the family 60_exceptions.md: the fault codes, the checks of R252, the halt, SYS.STATUS.
section
/-! PROOFS. The numbers of the fault codes (spec 60_exceptions.md rule R250); that a step takes the fault of the first check of R252 that fails, over the raw words, and else runs the command (R252 to R254), from which a fault's precision follows (R253); the halt and its end (R255); SYS.STATUS and its one encoding (R259). -/

namespace Sys2Proof.Proofs

open Sys2Proof Sys2Proof.Machine Sys2Proof.Safety Sys2Proof.Laws

/-! ### The fault codes (R250) -/

/-- Settles O10, by the table of the numbers. -/
theorem faultCodeNumbers : Obligations.FaultCodeNumbers := ⟨rfl, rfl, rfl, rfl, rfl, rfl, rfl, rfl⟩

/-! ### Checks 4 to 9 over the raw words (R252) -/

/-- The slots of check 4: the fields the row uses, in the order A, B, D. -/
def rowSlots (r : Row) (h : Word) : List SlotRef := ([Field.a, .b, .d].filter r.fields.contains).map (fieldRef h)

/-- The slots of checks 5 and 6, each with the kind that the row asks for. -/
def rowKinds (r : Row) (h : Word) : List (SlotRef × Kind) := r.kinds.map fun k => (fieldRef h k.1, k.2)

theorem checkSlots_rowSlots (s : State) (r : Row) (h : Word) :
    checkSlots s (rowSlots r h) =
      if [Field.a, .b, .d].any fun f => r.fields.contains f && decide (s.slots.length ≤ (fieldRef h f).toNat)
      then some .badSlot else none := by
  rw [rowSlots, checkSlots, List.any_map, List.any_filter]
  rfl

theorem kindOf_isNone (v : Slot) : (kindOf v).isNone = decide (v = .empty) := by
  cases v <;> simp [kindOf]

theorem checkKinds_rowKinds (s : State) (r : Row) (h : Word) :
    checkKinds s (rowKinds r h) =
      if r.kinds.any fun k => decide (slotAt s (fieldRef h k.1) = .empty) then some .emptySlot
      else if r.kinds.any fun k => decide (kindOf (slotAt s (fieldRef h k.1)) ≠ some k.2) then some .kindMismatch
      else none := by
  simp only [checkKinds, rowKinds, List.any_map, Function.comp_def, kindOf_isNone, bne, beq_eq_decide, decide_not]

/-- Checks 7 to 9 as `rawValidate` makes them, by the opcode's number and the first operand word. -/
def operandFault (s : State) (h imm : Word) : Option FaultCode :=
  let op := (opOf h).toNat
  let n := imm.toNat
  let len := fun f => slotLen (slotAt s (fieldRef h f))
  if op = 0x30 ∧ n % 64 ≠ 0 then some .badOperand
  else if (op = 0x20 ∧ s.params.maxW < (n + 63) / 64) ∨ (op = 0x30 ∧ s.params.maxW < n / 64) ∨
      ((op = 0x21 ∨ op = 0x31) ∧ s.params.maxW < n) ∨ (op = 0x11 ∧ s.params.maxB < n) then
    some .capacityExceeded
  else if op ∈ [0x37, 0x38, 0x40, 0x41, 0x42, 0x48, 0x49, 0x4A] ∧ len .a ≠ len .b then some .lengthMismatch
  else if op ∈ [0x48, 0x49, 0x4A, 0x4B] ∧ len .d ≠ len .a then some .lengthMismatch
  else none

theorem ite_option_or {p : Prop} [Decidable p] (x y z : Option FaultCode) :
    (if p then x else y).or z = if p then x.or z else y.or z :=
  apply_ite (Option.or · z) p x y

/-- After checks 1 to 3: the slots that the row uses, the kinds that it asks for, then checks 7 to 9. -/
theorem rawValidate_of_accepted (s : State) {h : Word} {ops : List Word} {r : Row} (hr : rowOf (opOf h) = some r)
    (hl : headerLegal r h = true) (hn : requiredLength r.format ops = some (1 + ops.length)) :
    rawValidate s (h :: ops) =
      (checkSlots s (rowSlots r h)).or ((checkKinds s (rowKinds r h)).or (operandFault s h (ops.headD 0))) := by
  have hn' : requiredLength r.format ops = some (h :: ops).length := by rw [hn, List.length_cons, Nat.add_comm]
  rw [checkSlots_rowSlots, checkKinds_rowKinds]
  simp only [rawValidate, hr, hl, hn', Bool.true_eq_false, if_false, ne_eq, not_true_eq_false, ite_option_or,
    Option.some_or, Option.none_or]
  rfl

/-! ### Checks 4 to 9 as the meanings make them -/

/-- Checks 7 to 9 that the meaning of a command makes: the fault of the first that fails. -/
def commandFault (s : State) : Instr → Option FaultCode
  | .f2From _ bytes => checkCapacity bytes.length s.params.maxB
  | .pkFrom _ words | .flFrom _ words => checkCapacity words.length s.params.maxW
  | .pkNew _ n => checkCapacity (wc n) s.params.maxW
  | .flNew _ n => (checkMultipleOf64 n).or (checkCapacity (n.toNat / 64) s.params.maxW)
  | .flContains a b | .flOverlaps a b | .flOr _ a b | .flAnd _ a b | .flXor _ a b => checkSameLen s a b
  | .flOrNa d a b | .flAndNa d a b | .flXorNa d a b => (checkSameLen s a b).or (checkSameLen s d a)
  | .flNotNa d a => checkSameLen s d a
  | _ => none

/-- Checks 4 to 9 of a command whose opcode has the row `r`: those the row asks for, then the command's own. -/
def firstFault (s : State) (r : Row) (i : Instr) : Option FaultCode :=
  (checkSlots s (rowSlots r (header i))).or ((checkKinds s (rowKinds r (header i))).or (commandFault s i))

theorem findSome?_id_cons (c : Option FaultCode) (cs : List (Option FaultCode)) :
    (c :: cs).findSome? id = c.or (cs.findSome? id) := by
  cases c <;> rfl

@[simp] theorem checkSlots_nil (s : State) : checkSlots s [] = none := rfl

@[simp] theorem checkKinds_nil (s : State) : checkKinds s [] = none := rfl

/-- The opcode numbers of `operandFault` are those of the commands that make the check, and the count a payload travels
with is its length. -/
theorem commandFault_eq_operandFault (s : State) {i : Instr} (hw : i.wf = true) :
    commandFault s i = operandFault s (header i) ((operandWords i).headD 0) := by
  cases i with
  | f2From _ payload | pkFrom _ payload | flFrom _ payload =>
    have hcount := Nat.mod_eq_of_lt (show payload.length < 18446744073709551616 by simpa [Instr.wf] using hw)
    simp [commandFault, operandFault, header, operandWords, checkCapacity, hcount]
  | pkNew _ n => simp [commandFault, operandFault, header, operandWords, checkCapacity, wc_eq]
  | flNew _ n =>
    simp [commandFault, operandFault, header, operandWords, checkCapacity, checkMultipleOf64, ite_option_or]
  | flContains | flOverlaps | flOr | flAnd | flXor | flOrNa | flAndNa | flXorNa | flNotNa =>
    simp [commandFault, operandFault, header, fieldRef, checkSameLen, ite_option_or]
  | _ => simp [commandFault, operandFault, header]

/-- Command by command: a meaning other than that of SYS.STATUS lists the checks of its row and its own, and what it
does after them leaves FAULT alone. -/
theorem exec_eq_perform_of_row {i : Instr} {r : Row} (s : State) (hi : i ≠ .sysStatus)
    (hr : rowOf (opOf (header i)) = some r) :
    ∃ checks done, exec i s = perform i s checks done ∧ checks.findSome? id = firstFault s r i ∧
      done.fault = s.fault := by
  cases i <;> rw [header, opOf_headerWord] at hr <;> obtain rfl := Option.some.inj hr
  case sysStatus => exact absurd rfl hi
  all_goals
    refine ⟨_, _, rfl, ?_, ?_⟩
    · simp [firstFault, rowSlots, rowKinds, header, fieldRef, commandFault, findSome?_id_cons]
  case pkSetBit | flSetBit =>
    rw [respondNone_fault]
    split <;> rfl
  all_goals rfl

theorem exec_of_firstFault_some {s : State} {i : Instr} {r : Row} {c : FaultCode}
    (hr : rowOf (opOf (header i)) = some r) (hf : s.fault = false) (hc : firstFault s r i = some c) :
    exec i s = .next (takeFault s c (header i)) := by
  have hi : i ≠ .sysStatus := by
    rintro rfl
    obtain rfl := Option.some.inj hr
    cases hc
  obtain ⟨checks, done, hp, hfirst, -⟩ := exec_eq_perform_of_row s hi hr
  simp only [hp, perform, answer, hf, hfirst, hc, Bool.false_eq_true, if_false]

theorem exec_of_firstFault_none {s : State} {i : Instr} {r : Row} (hr : rowOf (opOf (header i)) = some r)
    (hf : s.fault = false) (hc : firstFault s r i = none) : ∃ t, exec i s = .next t ∧ Effect i s t := by
  by_cases hi : i = .sysStatus
  · subst hi
    exact ⟨_, exec_sysStatus s, effect_sysStatus s⟩
  · obtain ⟨checks, done, hp, hfirst, hdone⟩ := exec_eq_perform_of_row s hi hr
    have hpass : ∀ c ∈ checks, c = none := List.findSome?_eq_none_iff.1 (hfirst.trans hc)
    rw [perform_completes hf hpass] at hp
    rcases exec_cases hi hp with ⟨hhalt, -⟩ | ⟨-, c, rfl⟩ | ⟨-, he⟩
    · rw [hf] at hhalt
      cases hhalt
    · rw [hf] at hdone
      cases hdone
    · exact ⟨done, hp, he⟩

/-! ### The raw checks against the decoder and the meanings (R252) -/

/-- The decoder makes checks 1 to 3, in the order of the raw words' checks. -/
theorem rawValidate_of_decode_error (s : State) {cmd : List Word} {c : FaultCode} (hd : decode cmd = .error c) :
    rawValidate s cmd = some c := by
  cases cmd with
  | nil => exact congrArg some (Except.error.inj hd)
  | cons h ops =>
    cases hr : rowOf (opOf h) with
    | none =>
      rw [decode_of_no_row hr] at hd
      simp only [rawValidate, hr, Except.error.inj hd]
    | some r =>
      cases hl : headerLegal r h with
      | false =>
        rw [decode_of_headerLegal_eq_false hr hl] at hd
        simp only [rawValidate, hr, if_pos hl, Except.error.inj hd]
      | true =>
        by_cases hn : requiredLength r.format ops = some (1 + ops.length)
        · rw [decode_of_requiredLength_eq hr hl hn] at hd
          cases hd
        · rw [decode_of_requiredLength_ne hr hl hn] at hd
          have hn' : requiredLength r.format ops ≠ some (h :: ops).length := by
            rwa [List.length_cons, Nat.add_comm]
          simp only [rawValidate, hr, hl, Bool.true_eq_false, if_false, if_pos hn', Except.error.inj hd]

/-- A command keeps the header and the first operand word it was decoded from, F2.FROM too. -/
theorem headD_operandWords_of_decode {h : Word} {ops : List Word} {i : Instr} (hd : decode (h :: ops) = .ok i) :
    (operandWords i).headD 0 = ops.headD 0 := by
  obtain ⟨-, -, -, hwords, hfrom⟩ := encodeDecodeGivesWords (h :: ops) i hd
  have htake : (encode i).take 2 = (h :: ops).take 2 := by
    by_cases hi : ∃ d bytes, i = .f2From d bytes
    · obtain ⟨d, bytes, hi⟩ := hi
      obtain ⟨htake, -⟩ := hfrom d bytes hi
      exact htake
    · rw [hwords fun d bytes e => hi ⟨d, bytes, e⟩]
  have hsecond := congrArg (fun ws => ws.getD 1 0) htake
  simpa [encode, List.headD_eq_head?_getD, List.head?_eq_getElem?] using hsecond

/-- The raw words of a command that decodes fail the same check as the command, whatever the state. -/
theorem rawValidate_of_decode_ok {cmd : List Word} {i : Instr} (hd : decode cmd = .ok i) :
    ∃ r, rowOf (opOf (header i)) = some r ∧ ∀ s, rawValidate s cmd = firstFault s r i := by
  obtain ⟨hw, hheader, -⟩ := encodeDecodeGivesWords cmd i hd
  cases cmd with
  | nil => cases hd
  | cons h ops =>
    obtain ⟨r, hr, hl, hn, -⟩ := decode_eq_ok hd
    obtain rfl : header i = h := hheader
    refine ⟨r, hr, fun s => ?_⟩
    rw [rawValidate_of_accepted s hr hl hn, firstFault, commandFault_eq_operandFault s hw,
      headD_operandWords_of_decode hd]

theorem rawValidate_inbox (s : State) (rest : List PortEvent) (cmd : List Word) :
    rawValidate { s with inbox := rest } cmd = rawValidate s cmd := rfl

/-! ### A step follows the checks (R252 to R254) -/

theorem takeFault_eq (s : State) (c : FaultCode) (h : Word) :
    takeFault s c h = { s with
      fault := true, fcode := faultNumber c, fhdr := h
      responses := s.responses ++ [[BitVec.ofNat 64 ((faultNumber c).toNat + h.toNat % 256 * 256)]] } := by
  rw [← rsp_opOf]
  rfl

/-- Settles O9: a command that does not decode fails one of checks 1 to 3, and one that decodes takes the first fault
of checks 4 to 9, or has its effect. -/
theorem stepFollowsValidation : Obligations.StepFollowsValidation := by
  intro s cmd rest hf hin
  cases hd : decode cmd with
  | error c =>
    rw [rawValidate_of_decode_error s hd]
    refine ⟨?_, nofun⟩
    rintro _ ⟨⟩
    exact step_of_decode_error hf hin hd
  | ok i =>
    obtain ⟨-, hheader, -⟩ := encodeDecodeGivesWords cmd i hd
    obtain ⟨r, hr, hraw⟩ := rawValidate_of_decode_ok hd
    rw [← rawValidate_inbox s rest, hraw, stepRunsDecodedCommand s cmd rest i hin hd, ← hheader]
    refine ⟨fun c hc => ?_, fun hc => ?_⟩
    · rw [exec_of_firstFault_some (s := { s with inbox := rest }) hr hf hc, takeFault_eq]
    · obtain ⟨t, ht, he⟩ := exec_of_firstFault_none (s := { s with inbox := rest }) hr hf hc
      obtain ⟨ws, hws⟩ := he.responses
      refine ⟨i, t, _, rfl, ht, he.fault.trans hf, he.fcode, he.fhdr, he.inbox, hws, ?_⟩
      rw [List.head?_cons, rsp_opOf, statusOk]
      exact congrArg (fun n => some (BitVec.ofNat 64 n)) (Nat.zero_add _)

/-- Settles O17: by R252 a fault is that of the first check that fails, and the state it leaves is written out there. -/
theorem faultsArePrecise : Obligations.FaultsArePrecise := by
  intro s t cmd rest hf hin hstep ht
  obtain ⟨hfault, hpass⟩ := stepFollowsValidation s cmd rest hf hin
  cases hv : rawValidate s cmd with
  | some c =>
    rw [hfault c hv, Host.Outcome.next.injEq] at hstep
    subst hstep
    exact ⟨rfl, rfl, rfl, c, rfl⟩
  | none =>
    obtain ⟨_, u, _, -, hu, hrun, -⟩ := hpass hv
    rw [hu, Host.Outcome.next.injEq] at hstep
    rw [← hstep, hrun] at ht
    cases ht

/-! ### The halt (R255) -/

theorem answerHalted_eq (s : State) (h : Word) :
    answerHalted s h = { s with
      responses := s.responses ++ [[BitVec.ofNat 64 (0xFF + h.toNat % 256 * 256)]] } := by
  rw [answerHalted, rsp_opOf]
  rfl

theorem respondStatus_eq (s : State) :
    respondStatus s 0x01 = { s with
      responses := s.responses ++
        [[0x100, BitVec.ofNat 64 ((if s.fault then 1 else 0) + s.fcode.toNat * 256), s.fhdr]] } := by
  have hword : statusWord s = BitVec.ofNat 64 ((if s.fault then 1 else 0) + s.fcode.toNat * 256) := by
    cases hf : s.fault <;> rw [statusWord, hf] <;> rfl
  rw [← hword]
  rfl

/-- Settles O11: a halted block has three answers: HALTED, the record, and reset. -/
theorem haltedUntilReset : Obligations.HaltedUntilReset := by
  intro s rest hf
  refine ⟨fun cmd hin hcmd => ?_, fun hin => ?_, fun hin => ⟨_, step_reset hin, rfl⟩⟩
  · rw [step_halted hf hin hcmd, answerHalted_eq]
  · rw [step_sysStatus hin, respondStatus_eq, if_pos hf]

/-! ### SYS.STATUS (R259) -/

/-- Opcode 0x01 uses no field and format H, so a header other than 1 fails check 2 and a further word check 3. -/
theorem decode_of_sysStatus_opcode {h : Word} {ops : List Word} (hop : opOf h = 0x01) (hne : ¬ (h = 1 ∧ ops = [])) :
    decode (h :: ops) = .error (if h ≠ 1 then .illegalCommand else .badLength) := by
  have hrow : rowOf (opOf h) = some ⟨0x01, .h, [], [], .status, fun _ => .sysStatus⟩ := by rw [hop]; rfl
  by_cases hh : h = 1
  · subst hh
    have hops : ops.length ≠ 0 := by simpa using hne
    rw [if_neg (by simp)]
    exact decode_of_requiredLength_ne hrow (by decide) (by simpa [requiredLength] using hops)
  · rw [if_pos hh]
    refine decode_of_headerLegal_eq_false hrow ?_
    rw [← Bool.not_eq_true]
    intro hl
    have hfields := headerWord_of_headerLegal hl
    rw [hop] at hfields
    have hone : headerWord 0x01 0 0 0 false = 1 := rfl
    exact hh (hfields.symm.trans hone)

/-- Settles O12: the word 1 alone decodes to SYS.STATUS, and everything else with its opcode is HALTED or rejected. -/
theorem sysStatusReadsRecord : Obligations.SysStatusReadsRecord := by
  refine ⟨fun s => by rw [exec_sysStatus, respondStatus_eq], fun s h ops rest hop hin => ?_⟩
  have hop' : opOf h = 0x01 := BitVec.eq_of_toNat_eq (by rw [opOf_toNat]; exact hop)
  by_cases hexact : h = 1 ∧ ops = []
  · rw [if_pos hexact]
    obtain ⟨rfl, rfl⟩ := hexact
    rw [step_sysStatus hin, respondStatus_eq]
  rw [if_neg hexact]
  by_cases hf : s.fault = true
  · have hcmd : h :: ops ≠ [1] := by simpa using hexact
    rw [if_pos hf, step_halted hf hin hcmd, answerHalted_eq, List.headD_cons, hop]
    rfl
  · rw [if_neg hf, step_of_decode_error (by simpa using hf) hin (decode_of_sysStatus_opcode hop' hexact),
      List.headD_cons, hop]
    by_cases hh : h = 1
    · subst hh; rfl
    · rw [if_pos hh, if_pos hh]; rfl

end Sys2Proof.Proofs
end

-- The proof of the family 70_reset_and_hazards.md: the reset event.
section
/-! PROOFS. What the reset event makes of a state (spec 70_reset_and_hazards.md rule R280): the slots and the fault record alone change. A step on that event is `resetEvent` of the state with the event taken (`step_reset`). -/

namespace Sys2Proof.Proofs

open Sys2Proof Sys2Proof.Machine Sys2Proof.Safety Sys2Proof.Laws

/-! ### The reset event (R280) -/

/-- The whole state after the event: `resetEvent_slots` to `resetEvent_responses` in one equation. -/
theorem resetEvent_eq (s : State) :
    resetEvent s =
      { s with slots := List.replicate s.slots.length .empty, fault := false, fcode := 0x00, fhdr := 0 } := rfl

/-- Settles O13: the step takes the event off the port and makes `resetEvent` of the state. -/
theorem resetEventClearsState : Obligations.ResetEventClearsState := by
  intro s rest hin
  rw [step_reset hin, resetEvent_eq]

end Sys2Proof.Proofs
end
